-- ==== Sys2Proof/Word.lean ====
section
/-! DEFINITION. The words of the machine: 8-bit registers and memory cells (XLEN), 16-bit instruction words,
addresses and program counter (ILEN, IW, PCW); 00_scope.md R4. Every value is unsigned (00_scope.md section 6.1). -/

namespace Sys2Proof

/-- One memory cell, general register, timer or framebuffer byte (`XLEN` = 8). -/
abbrev Byte := BitVec 8

/-- An instruction word, the index register, the program counter or a stack entry (`ILEN`, `IW`, `PCW` = 16). -/
abbrev Word := BitVec 16

/-- The address immediate `nnn` (`ADDR_BITS` = 12). -/
abbrev Addr12 := BitVec 12

/-- A 4-bit field of an instruction word. -/
abbrev Nibble := BitVec 4

end Sys2Proof
end

