-- ==== Sys2Proof/Config.lean ====
section
/-! DEFINITION. The implementation parameters of 00_scope.md R4, under the spec's own names, and the one free value:
the byte a random draw gives (49_host_interface.md R185). -/

namespace Sys2Proof

/-- `NREG`: the number of general registers. -/
abbrev Config.nreg : Nat := 16

/-- `STACK_DEPTH`: the capacity of the call stack in entries. -/
abbrev Config.stackDepth : Nat := 16

/-- `WIDTH`: the framebuffer's width in pixels. -/
abbrev Config.width : Nat := 64

/-- `HEIGHT`: the framebuffer's height in pixels. -/
abbrev Config.height : Nat := 32

/-- `FB_BYTES`: the framebuffer's size in bytes, `WIDTH*HEIGHT/8`. -/
abbrev Config.fbBytes : Nat := 256

/-- `NKEYS`: the number of key codes. -/
abbrev Config.nkeys : Nat := 16

/-- `MEM_SIZE`: the number of bytes of AddressSpace; valid addresses are 0 to `MEM_SIZE`-1. -/
def Config.memSize : Nat := 4096

/-- `FONT_BASE`: the first address of the font table. -/
def Config.fontBase : Nat := 0

/-- `FONT_GLYPH_BYTES`: bytes per glyph. -/
def Config.fontGlyphBytes : Nat := 5

/-- `FONT_END`: the first address after the font table. -/
def Config.fontEnd : Nat := 80

/-- `LOAD_BASE`: the address of the first program byte and the reset value of pc. -/
def Config.loadBase : Nat := 512

/-- FREE VALUE (log 4): the byte of the `n`-th draw from the random-byte source when no byte of it is known
beforehand. No rule constrains it (41_load_and_alu.md R132, 49_host_interface.md R185), and it has no body here. -/
opaque Config.randomByte : Nat → Byte

end Sys2Proof
end

