-- ==== Sys2Proof/Syntax.lean ====
section
/-! DEFINITION. The instructions: one constructor per row of spec/opcode_table.json, in the order of the opcode map
(30_encoding.md R75), with the operand fields of its form (R71, R72). SHR and SHL have the one operand `x`: their `y`
field is ignored, and all its values decode to the same instruction (R79). -/

namespace Sys2Proof

/-- The index of a general register, V[0] to V[15]: a 4-bit field always names one (30_encoding.md R73). -/
abbrev Reg := Fin Config.nreg

/-- VF, the flags register (`FLAG` = 15; 10_state.md R21). -/
abbrev Reg.flag : Reg := 15

/-- A key code, 0 to 15 (10_state.md R37). -/
abbrev Key := Fin Config.nkeys

/-- The 34 instructions. -/
inductive Instr where
  /-- `CLS` -/
  | cls
  /-- `RET` -/
  | ret
  /-- `JP addr` -/
  | jpAddr (nnn : Addr12)
  /-- `CALL addr` -/
  | callAddr (nnn : Addr12)
  /-- `SE Vx,byte` -/
  | seVxByte (x : Reg) (kk : Byte)
  /-- `SE Vx,Vy` -/
  | seVxVy (x y : Reg)
  /-- `SNE Vx,byte` -/
  | sneVxByte (x : Reg) (kk : Byte)
  /-- `SNE Vx,Vy` -/
  | sneVxVy (x y : Reg)
  /-- `LD Vx,byte` -/
  | ldVxByte (x : Reg) (kk : Byte)
  /-- `LD Vx,Vy` -/
  | ldVxVy (x y : Reg)
  /-- `LD I,addr` -/
  | ldIAddr (nnn : Addr12)
  /-- `ADD Vx,byte` -/
  | addVxByte (x : Reg) (kk : Byte)
  /-- `ADD Vx,Vy` -/
  | addVxVy (x y : Reg)
  /-- `OR Vx,Vy` -/
  | orVxVy (x y : Reg)
  /-- `AND Vx,Vy` -/
  | andVxVy (x y : Reg)
  /-- `XOR Vx,Vy` -/
  | xorVxVy (x y : Reg)
  /-- `SUB Vx,Vy` -/
  | subVxVy (x y : Reg)
  /-- `SUBN Vx,Vy` -/
  | subnVxVy (x y : Reg)
  /-- `SHR Vx` -/
  | shrVx (x : Reg)
  /-- `SHL Vx` -/
  | shlVx (x : Reg)
  /-- `RND Vx,byte` -/
  | rndVxByte (x : Reg) (kk : Byte)
  /-- `JP V0,addr` -/
  | jpV0Addr (nnn : Addr12)
  /-- `DRW Vx,Vy,n` -/
  | drwVxVyN (x y : Reg) (n : Nibble)
  /-- `SKP Vx` -/
  | skpVx (x : Reg)
  /-- `SKNP Vx` -/
  | sknpVx (x : Reg)
  /-- `LD Vx,DT` -/
  | ldVxDT (x : Reg)
  /-- `LD DT,Vx` -/
  | ldDTVx (x : Reg)
  /-- `LD ST,Vx` -/
  | ldSTVx (x : Reg)
  /-- `ADD I,Vx` -/
  | addIVx (x : Reg)
  /-- `LD F,Vx` -/
  | ldFVx (x : Reg)
  /-- `LD B,Vx` -/
  | ldBVx (x : Reg)
  /-- `LD [I],Vx` -/
  | ldMemVx (x : Reg)
  /-- `LD Vx,[I]` -/
  | ldVxMem (x : Reg)
  /-- `LD Vx,K` -/
  | ldVxK (x : Reg)
  deriving DecidableEq, Repr

end Sys2Proof
end

