-- ==== Sys2Proof/WellFormed.lean ====
section
/-! DEFINITION. Which instructions have a word. Register indices, key codes and immediates are bounded by their
types, so the one check is the operand range of DRW: "(1 ≤ n ≤ 15)" (43_display.md R152, R157; 30_encoding.md R80). -/

namespace Sys2Proof

/-- The instruction lies in its operand range: `n` of `DRW Vx,Vy,n` is not 0. -/
def wellFormed : Instr → Bool
  | .cls | .ret => true
  | .jpAddr _ | .callAddr _ | .ldIAddr _ | .jpV0Addr _ => true
  | .seVxByte _ _ | .sneVxByte _ _ | .ldVxByte _ _ | .addVxByte _ _ | .rndVxByte _ _ => true
  | .seVxVy _ _ | .sneVxVy _ _ | .ldVxVy _ _ | .addVxVy _ _ | .orVxVy _ _ | .andVxVy _ _ => true
  | .xorVxVy _ _ | .subVxVy _ _ | .subnVxVy _ _ | .shrVx _ | .shlVx _ => true
  | .drwVxVyN _ _ n => n != 0#4
  | .skpVx _ | .sknpVx _ | .ldVxDT _ | .ldDTVx _ | .ldSTVx _ | .addIVx _ => true
  | .ldFVx _ | .ldBVx _ | .ldMemVx _ | .ldVxMem _ | .ldVxK _ => true

end Sys2Proof
end

