-- ==== Sys2Proof/Decode.lean ====
section
/-! DEFINITION. The decoder and the encoder. The opcode map is data, one row per instruction, as 30_encoding.md R75
prints it: a word matches a row when its masked bits equal the row's pattern and it is not in the row's excluded set
(R74). A word that matches no row is rejected by the name of its line in the table of R77. The patterns other than
CLS = 0x00E0 are the spec's general-knowledge table (D15, log 1). -/

namespace Sys2Proof

/-- `op` = word[15:12] (30_encoding.md R71). -/
def fieldOp (w : Word) : Nibble := w.extractLsb' 12 4

/-- `x` = word[11:8], the index of Vx. -/
def fieldX (w : Word) : Reg := (w.extractLsb' 8 4).toFin

/-- `y` = word[7:4], the index of Vy. -/
def fieldY (w : Word) : Reg := (w.extractLsb' 4 4).toFin

/-- `n` = word[3:0]. -/
def fieldN (w : Word) : Nibble := w.extractLsb' 0 4

/-- `kk` = word[7:0]. -/
def fieldKk (w : Word) : Byte := w.extractLsb' 0 8

/-- `nnn` = word[11:0]. -/
def fieldNnn (w : Word) : Addr12 := w.extractLsb' 0 12

/-- One row of the opcode map: the table's mnemonic, the mask, the pattern ("match"), the words of the masked
pattern that are excluded, and the instruction read from the operand fields. -/
structure OpcodeRow where
  mnemonic : String
  mask : Word
  pattern : Word
  excluded : Word → Bool
  build : Word → Instr

/-- The excluded set of every row but DRW's. -/
def noneExcluded : Word → Bool := fun _ => false

/-- `word and r.mask = r.match`, and the word is not excluded (30_encoding.md R74). -/
def rowAccepts (w : Word) (r : OpcodeRow) : Bool := (w &&& r.mask) == r.pattern && !r.excluded w

/-- Rows of the opcode map: control transfer, skips and the display clear (30_encoding.md R75). -/
def controlRows : List OpcodeRow :=
  [⟨"CLS", 0xFFFF, 0x00E0, noneExcluded, fun _ => .cls⟩] ++
  [⟨"RET", 0xFFFF, 0x00EE, noneExcluded, fun _ => .ret⟩] ++
  [⟨"JP_addr", 0xF000, 0x1000, noneExcluded, fun w => .jpAddr (fieldNnn w)⟩] ++
  [⟨"CALL_addr", 0xF000, 0x2000, noneExcluded, fun w => .callAddr (fieldNnn w)⟩] ++
  [⟨"SE_Vx_byte", 0xF000, 0x3000, noneExcluded, fun w => .seVxByte (fieldX w) (fieldKk w)⟩] ++
  [⟨"SE_Vx_Vy", 0xF00F, 0x5000, noneExcluded, fun w => .seVxVy (fieldX w) (fieldY w)⟩] ++
  [⟨"SNE_Vx_byte", 0xF000, 0x4000, noneExcluded, fun w => .sneVxByte (fieldX w) (fieldKk w)⟩] ++
  [⟨"SNE_Vx_Vy", 0xF00F, 0x9000, noneExcluded, fun w => .sneVxVy (fieldX w) (fieldY w)⟩]

/-- Rows of the opcode map: loads, arithmetic, logic and shifts (30_encoding.md R75). -/
def registerRows : List OpcodeRow :=
  [⟨"LD_Vx_byte", 0xF000, 0x6000, noneExcluded, fun w => .ldVxByte (fieldX w) (fieldKk w)⟩] ++
  [⟨"LD_Vx_Vy", 0xF00F, 0x8000, noneExcluded, fun w => .ldVxVy (fieldX w) (fieldY w)⟩] ++
  [⟨"LD_I_addr", 0xF000, 0xA000, noneExcluded, fun w => .ldIAddr (fieldNnn w)⟩] ++
  [⟨"ADD_Vx_byte", 0xF000, 0x7000, noneExcluded, fun w => .addVxByte (fieldX w) (fieldKk w)⟩] ++
  [⟨"ADD_Vx_Vy", 0xF00F, 0x8004, noneExcluded, fun w => .addVxVy (fieldX w) (fieldY w)⟩] ++
  [⟨"OR_Vx_Vy", 0xF00F, 0x8001, noneExcluded, fun w => .orVxVy (fieldX w) (fieldY w)⟩] ++
  [⟨"AND_Vx_Vy", 0xF00F, 0x8002, noneExcluded, fun w => .andVxVy (fieldX w) (fieldY w)⟩] ++
  [⟨"XOR_Vx_Vy", 0xF00F, 0x8003, noneExcluded, fun w => .xorVxVy (fieldX w) (fieldY w)⟩] ++
  [⟨"SUB_Vx_Vy", 0xF00F, 0x8005, noneExcluded, fun w => .subVxVy (fieldX w) (fieldY w)⟩] ++
  [⟨"SUBN_Vx_Vy", 0xF00F, 0x8007, noneExcluded, fun w => .subnVxVy (fieldX w) (fieldY w)⟩] ++
  [⟨"SHR_Vx", 0xF00F, 0x8006, noneExcluded, fun w => .shrVx (fieldX w)⟩] ++
  [⟨"SHL_Vx", 0xF00F, 0x800E, noneExcluded, fun w => .shlVx (fieldX w)⟩]

/-- Rows of the opcode map: random, computed jump, draw and keys (30_encoding.md R75). -/
def restRows : List OpcodeRow :=
  [⟨"RND_Vx_byte", 0xF000, 0xC000, noneExcluded, fun w => .rndVxByte (fieldX w) (fieldKk w)⟩] ++
  [⟨"JP_V0_addr", 0xF000, 0xB000, noneExcluded, fun w => .jpV0Addr (fieldNnn w)⟩] ++
  [⟨"DRW_Vx_Vy_n", 0xF000, 0xD000, fun w => fieldN w == 0#4, fun w => .drwVxVyN (fieldX w) (fieldY w) (fieldN w)⟩] ++
  [⟨"SKP_Vx", 0xF0FF, 0xE09E, noneExcluded, fun w => .skpVx (fieldX w)⟩] ++
  [⟨"SKNP_Vx", 0xF0FF, 0xE0A1, noneExcluded, fun w => .sknpVx (fieldX w)⟩]

/-- Rows of the opcode map: the leading nibble F (30_encoding.md R75). -/
def miscRows : List OpcodeRow :=
  [⟨"LD_Vx_DT", 0xF0FF, 0xF007, noneExcluded, fun w => .ldVxDT (fieldX w)⟩] ++
  [⟨"LD_DT_Vx", 0xF0FF, 0xF015, noneExcluded, fun w => .ldDTVx (fieldX w)⟩] ++
  [⟨"LD_ST_Vx", 0xF0FF, 0xF018, noneExcluded, fun w => .ldSTVx (fieldX w)⟩] ++
  [⟨"ADD_I_Vx", 0xF0FF, 0xF01E, noneExcluded, fun w => .addIVx (fieldX w)⟩] ++
  [⟨"LD_F_Vx", 0xF0FF, 0xF029, noneExcluded, fun w => .ldFVx (fieldX w)⟩] ++
  [⟨"LD_B_Vx", 0xF0FF, 0xF033, noneExcluded, fun w => .ldBVx (fieldX w)⟩] ++
  [⟨"LD__I__Vx", 0xF0FF, 0xF055, noneExcluded, fun w => .ldMemVx (fieldX w)⟩] ++
  [⟨"LD_Vx__I", 0xF0FF, 0xF065, noneExcluded, fun w => .ldVxMem (fieldX w)⟩] ++
  [⟨"LD_Vx_K", 0xF0FF, 0xF00A, noneExcluded, fun w => .ldVxK (fieldX w)⟩]

/-- The opcode map of 30_encoding.md R75, 34 rows in the catalog's order. -/
def opcodeMap : List OpcodeRow := controlRows ++ registerRows ++ restRows ++ miscRows

/-- Why a word, or a run of bytes, is no instruction: the lines of the table of 30_encoding.md R77, and a run of
fewer than two bytes. -/
inductive Reject where
  /-- 0x0000 to 0x0FFF except 0x00E0 and 0x00EE. -/
  | leadingZero
  /-- 0x5xy1 to 0x5xyF. -/
  | seLowNibble
  /-- 0x8xy8 to 0x8xyD, 0x8xyF. -/
  | aluLowNibble
  /-- 0x9xy1 to 0x9xyF. -/
  | sneLowNibble
  /-- 0xDxy0 (30_encoding.md R80). -/
  | drwNoRows
  /-- 0xExkk with `kk` not 0x9E or 0xA1. -/
  | keyByte
  /-- 0xFxkk with another `kk` than the nine of the map. -/
  | miscByte
  /-- Fewer than two bytes: no instruction is shorter (30_encoding.md R70). -/
  | truncated
  deriving DecidableEq, Repr

/-- The line of 30_encoding.md R77 that an illegal word belongs to, told by its leading nibble; the other nine
leading nibbles have no illegal word. -/
def rejectName (w : Word) : Reject :=
  if fieldOp w = 0x0 then .leadingZero
  else if fieldOp w = 0x5 then .seLowNibble
  else if fieldOp w = 0x8 then .aluLowNibble
  else if fieldOp w = 0x9 then .sneLowNibble
  else if fieldOp w = 0xD then .drwNoRows
  else if fieldOp w = 0xE then .keyByte
  else .miscByte

/-- Decoding of one word (30_encoding.md R74, R75): the instruction of the row it matches, or the name of its line
of R77. -/
def decode (w : Word) : Except Reject Instr :=
  match opcodeMap.find? (rowAccepts w) with
  | some r => .ok (r.build w)
  | none => .error (rejectName w)

/-- The word of two bytes in the order of fetch: the byte at the lower address is the high byte (20_memory.md R58). -/
def wordOfBytes (byte0 byte1 : Byte) : Word := byte0 ++ byte1

/-- Decoding of a run of bytes: the first two are one instruction (30_encoding.md R70), the rest is handed back. -/
def decodeBytes : List Byte → Except Reject (Instr × List Byte)
  | byte0 :: byte1 :: rest =>
    match decode (wordOfBytes byte0 byte1) with
    | .ok i => .ok (i, rest)
    | .error r => .error r
  | _ => .error .truncated

/-- The two bytes of an instruction whose bits are `w`, as the hardware stores them: the high byte at the lower
address. An instruction is 16 bits long (30_encoding.md R70), so bits above `nbits` are 0 and bits above 16 are none. -/
def tableBytes (nbits w : Nat) : List Byte :=
  [BitVec.ofNat 8 (w % 2 ^ nbits / 256), BitVec.ofNat 8 (w % 2 ^ nbits)]

/-- What the decoder reads from an instruction whose bits are `w`, numbered as spec/opcode_table.json numbers them. -/
def decodeTableWord (nbits w : Nat) : Option Instr :=
  match decodeBytes (tableBytes nbits w) with
  | .ok (i, _) => some i
  | .error _ => none

/-- A pattern with `nnn` in word[11:0] (form NNN of 30_encoding.md R72). -/
def wordNnn (p : Word) (nnn : Addr12) : Word := p ||| nnn.setWidth 16

/-- The four bits of a register index. -/
def regBits (x : Reg) : Nibble := BitVec.ofFin x

/-- A pattern with `x` in word[11:8] (form X). -/
def wordX (p : Word) (x : Reg) : Word := p ||| ((regBits x).setWidth 16 <<< 8)

/-- A pattern with `x` in word[11:8] and `kk` in word[7:0] (form XKK). -/
def wordXkk (p : Word) (x : Reg) (kk : Byte) : Word := wordX p x ||| kk.setWidth 16

/-- A pattern with `x` in word[11:8] and `y` in word[7:4] (form XY). -/
def wordXy (p : Word) (x y : Reg) : Word := wordX p x ||| ((regBits y).setWidth 16 <<< 4)

/-- A pattern with `x`, `y` and `n` in word[11:8], word[7:4] and word[3:0] (form XYN). -/
def wordXyn (p : Word) (x y : Reg) (n : Nibble) : Word := wordXy p x y ||| n.setWidth 16

/-- The word of an instruction (30_encoding.md R75). SHR and SHL are given `y` = 0, as an assembler does (R86).
An ill-formed instruction (DRW with `n` = 0) has no word of its own; its fields give a word the decoder rejects. -/
def encode : Instr → Word
  | .cls => 0x00E0#16
  | .ret => 0x00EE#16
  | .jpAddr nnn => wordNnn 0x1000 nnn
  | .callAddr nnn => wordNnn 0x2000 nnn
  | .seVxByte x kk => wordXkk 0x3000 x kk
  | .seVxVy x y => wordXy 0x5000 x y
  | .sneVxByte x kk => wordXkk 0x4000 x kk
  | .sneVxVy x y => wordXy 0x9000 x y
  | .ldVxByte x kk => wordXkk 0x6000 x kk
  | .ldVxVy x y => wordXy 0x8000 x y
  | .ldIAddr nnn => wordNnn 0xA000 nnn
  | .addVxByte x kk => wordXkk 0x7000 x kk
  | .addVxVy x y => wordXy 0x8004 x y
  | .orVxVy x y => wordXy 0x8001 x y
  | .andVxVy x y => wordXy 0x8002 x y
  | .xorVxVy x y => wordXy 0x8003 x y
  | .subVxVy x y => wordXy 0x8005 x y
  | .subnVxVy x y => wordXy 0x8007 x y
  | .shrVx x => wordX 0x8006 x
  | .shlVx x => wordX 0x800E x
  | .rndVxByte x kk => wordXkk 0xC000 x kk
  | .jpV0Addr nnn => wordNnn 0xB000 nnn
  | .drwVxVyN x y n => wordXyn 0xD000 x y n
  | .skpVx x => wordX 0xE09E x
  | .sknpVx x => wordX 0xE0A1 x
  | .ldVxDT x => wordX 0xF007 x
  | .ldDTVx x => wordX 0xF015 x
  | .ldSTVx x => wordX 0xF018 x
  | .addIVx x => wordX 0xF01E x
  | .ldFVx x => wordX 0xF029 x
  | .ldBVx x => wordX 0xF033 x
  | .ldMemVx x => wordX 0xF055 x
  | .ldVxMem x => wordX 0xF065 x
  | .ldVxK x => wordX 0xF00A x

end Sys2Proof
end

