-- ==== Sys2Proof/Machine/Font.lean ====
section
/-! DEFINITION. The font table, 16 glyphs of 5 bytes (20_memory.md R61): a configuration table of the spec
(93_implementation_defined.md U3). -/

namespace Sys2Proof.Machine

/-- The glyphs of the digits 0 to 7, top row first (20_memory.md R61). -/
def fontLow : List Byte :=
  [0xF0, 0x90, 0x90, 0x90, 0xF0] ++ [0x20, 0x60, 0x20, 0x20, 0x70] ++
  [0xF0, 0x10, 0xF0, 0x80, 0xF0] ++ [0xF0, 0x10, 0xF0, 0x10, 0xF0] ++
  [0x90, 0x90, 0xF0, 0x10, 0x10] ++ [0xF0, 0x80, 0xF0, 0x10, 0xF0] ++
  [0xF0, 0x80, 0xF0, 0x90, 0xF0] ++ [0xF0, 0x10, 0x20, 0x40, 0x40]

/-- The glyphs of the digits 8 to F, top row first (20_memory.md R61). -/
def fontHigh : List Byte :=
  [0xF0, 0x90, 0xF0, 0x90, 0xF0] ++ [0xF0, 0x90, 0xF0, 0x10, 0xF0] ++
  [0xF0, 0x90, 0xF0, 0x90, 0x90] ++ [0xE0, 0x90, 0xE0, 0x90, 0xE0] ++
  [0xF0, 0x80, 0x80, 0x80, 0xF0] ++ [0xE0, 0x90, 0x90, 0x90, 0xE0] ++
  [0xF0, 0x80, 0xF0, 0x80, 0xF0] ++ [0xF0, 0x80, 0xF0, 0x80, 0x80]

/-- The font table: the `FONT_END - FONT_BASE` = 80 bytes that construct puts at `FONT_BASE` (20_memory.md R61).
The bytes are the spec's own decision D3 (log 1). -/
def fontTable : List Byte := fontLow ++ fontHigh

end Sys2Proof.Machine
end

