-- ==== Sys2Proof/Machine/State.lean ====
section
/-! DEFINITION. The state of the machine: the tuple (V, I, pc, STACK, SP, DT, ST, MEM, FB, HELD, EDGE, PHASE) of
10_state.md, and the inputs the machine has not consumed yet (`Inputs`, the model's own). Plain data throughout.
The reasons a step can stop, and the state after reset (10_state.md R44). -/

namespace Sys2Proof.Machine

/-- The lifecycle phase PHASE (10_state.md R39). -/
inductive Phase where
  /-- After `construct`: no program is loaded. -/
  | constructed
  /-- After a successful `load`: `step()` is defined here only. -/
  | loaded
  /-- After a fault: nothing but `construct` leaves it. -/
  | faulted
  deriving DecidableEq, Repr

/-- HELD as a set of key codes: entry `k` says whether key `k` is held (10_state.md R37). -/
abbrev KeySet := Vector Bool Config.nkeys

/-- The bytes of the framebuffer, FB[0] to FB[255] (10_state.md R34). -/
abbrev Framebuffer := Vector Byte Config.fbBytes

/-- MEM: the cells that differ from their reset contents, by rising address (`memWf`). -/
abbrev Memory := List Host.Cell

/-- The events of the interface (the table of 49_host_interface.md R171). -/
inductive Event where
  /-- `step()`: the interpreter attempts one instruction (R174). -/
  | step
  /-- `tick()`: the timer decay engine decrements DT and ST (R178). -/
  | tick
  /-- `poll_input(held, pressed)`: the host delivers the held set and the new down-transitions, oldest first (R180). -/
  | pollInput (held : KeySet) (pressed : List Key)
  /-- `load(bytes)`: the host copies a program image (R172). -/
  | load (bytes : List Byte)
  /-- `construct()`: the machine's only reset (R170). -/
  | construct
  /-- `read_framebuffer()` (R182). -/
  | readFramebuffer
  /-- `read_timers()` (R183). -/
  | readTimers
  deriving DecidableEq, Repr

/-- The inputs that wait outside the machine (10_state.md R43 c and e: they are no state of the machine). The MODEL's
own: plain data that says which event comes next and which bytes the random-byte source gives (logs 3 and 4). -/
structure Inputs where
  /-- The events to come, in order; when it is empty the next event is a `step()` (log 3). -/
  agenda : List Event
  /-- The bytes the random-byte source is known to give next, consumed in order, one per executed RND
  (49_host_interface.md R185); when it is empty the draw is the free value `Config.randomByte` (log 4). -/
  randomBytes : List Byte
  /-- How many bytes have been drawn: the argument of the free value (log 4). -/
  draws : Nat
  deriving DecidableEq, Repr

/-- The state of the machine. -/
structure State where
  /-- V[0] to V[15]; V[15] is VF (10_state.md R20 to R22). -/
  v : Vector Byte Config.nreg
  /-- I, the index register (10_state.md R23). -/
  i : Word
  /-- pc, the byte address of the next instruction (10_state.md R24). -/
  pc : Word
  /-- STACK[0] to STACK[15]: return addresses, the oldest at index 0 (10_state.md R27). -/
  stack : Vector Word Config.stackDepth
  /-- SP: the number of valid stack entries, 0 to 16 (10_state.md R27). -/
  sp : Fin (Config.stackDepth + 1)
  /-- DT, the delay timer (10_state.md R32). -/
  dt : Byte
  /-- ST, the sound timer (10_state.md R33). -/
  st : Byte
  /-- MEM, the address space (20_memory.md R50). -/
  mem : Memory
  /-- FB, the framebuffer (10_state.md R34). -/
  fb : Framebuffer
  /-- HELD, the set of held keys (10_state.md R37). -/
  held : KeySet
  /-- EDGE, the keys whose down-transition is not yet consumed, the most recently latched last (10_state.md R38). -/
  edge : List Key
  /-- PHASE, the lifecycle phase (10_state.md R39). -/
  phase : Phase
  /-- The inputs not consumed yet; the model's own (logs 3 and 4). -/
  env : Inputs
  deriving DecidableEq, Repr

/-- The faults: the spec's three, and no other (60_exceptions.md R200). Each ends the run and leaves the state as it
was but for PHASE (R205, `State.enterFault`). The arguments are what R204 gives the reader of a trace. -/
inductive Fault where
  /-- `DecodeError`: raised by `step()` when the fetched word matches no row of the opcode map (R201), with the pc of
  the step and the word. Safe: the spec demands it. -/
  | decodeError (pc : Word) (word : Word)
  /-- `OperandRangeError`: raised by `step()` under the conditions a to h of R202 (the fetch, CALL, RET, DRW, LD B,
  LD [I],Vx, LD Vx,[I]), with the pc of the step and, where the fetch succeeded, the word. Safe: the spec demands it;
  for an odd pc and for a store into the font it is the spec's decision (D8, D16), which errs toward unprovable. -/
  | operandRangeError (pc : Word) (word : Option Word)
  /-- `LoadError`: raised by `load` when the image does not fit (R203), with its length (log 5). Safe: the spec demands
  it. -/
  | loadError (len : Nat)
  deriving DecidableEq, Repr

/-- The moves the machine does not have. No instruction answers with one of them. -/
inductive Refusal where
  /-- An instruction of the table without a meaning; the dispatcher alone could answer so, and no arm does. Safe. -/
  | notModelled (mnemonic : String)
  /-- `step()` before a successful `load`: "a model refuses it" (49_host_interface.md R176). Raised by `interpret`.
  Safe: the machine does nothing where the spec gives no meaning. -/
  | stepBeforeLoad
  /-- `step`, `tick`, `load` or `poll_input` after a fault: no such move (60_exceptions.md R206). Raised by `interpret`
  and `hostMove`. Safe: the machine does nothing where the spec gives no meaning. -/
  | machineFaulted
  /-- A second `load`: no such move (49_host_interface.md R171, R176; D26). Raised by `hostMove`. Safe, as above. -/
  | loadAgain
  deriving DecidableEq, Repr

/-- No input waits (logs 3 and 4). -/
def Inputs.none : Inputs := { agenda := [], randomBytes := [], draws := 0 }

/-- The state after `construct()` (10_state.md R44; 70_reset_and_hazards.md R230). The stack slots, which the spec
leaves unspecified and no rule reads, are 0 (log 2). -/
def State.reset : State where
  v := Vector.replicate Config.nreg 0
  i := 0
  pc := BitVec.ofNat 16 Config.loadBase
  stack := Vector.replicate Config.stackDepth 0
  sp := 0
  dt := 0
  st := 0
  mem := []
  fb := Vector.replicate Config.fbBytes 0
  held := Vector.replicate Config.nkeys false
  edge := []
  phase := .constructed
  env := Inputs.none

end Sys2Proof.Machine
end

