-- ==== Sys2Proof/Machine/Ops.lean ====
section
/-! DEFINITION. The named operations over memory, registers, the stack, the framebuffer and the random source; taking
a fault as one shared operation; advancing pc. -/

namespace Sys2Proof.Machine

/-! ### Memory (20_memory.md) -/

/-- What an address that is not listed reads as: the reset contents of MEM (10_state.md R44; 20_memory.md R52, R61):
the font below `FONT_END` (`FONT_BASE` is 0), 0 elsewhere. -/
def unlistedByte (a : Nat) : Byte := fontTable.getD a 0

/-- MEM[a]. -/
def memByte : Memory → Nat → Byte
  | [], a => unlistedByte a
  | c :: rest, a => if c.1 = a then c.2 else memByte rest a

/-- The cells without the one at `a`. -/
def memErase (m : Memory) (a : Nat) : Memory := m.filter fun c => c.1 != a

/-- The cells with one more, before the first cell of a higher address. -/
def memInsert : Memory → Nat → Byte → Memory
  | [], a, b => [(a, b)]
  | c :: rest, a, b => if a < c.1 then (a, b) :: c :: rest else c :: memInsert rest a b

/-- MEM[a] <- b, keeping the canonical form: a cell that holds its reset contents is not listed. -/
def memPut (m : Memory) (a : Nat) (b : Byte) : Memory :=
  if b = unlistedByte a then memErase m a else memInsert (memErase m a) a b

/-- MEM[a], MEM[a+1], ... <- the bytes in order. -/
def memPutBytes : Memory → Nat → List Byte → Memory
  | m, _, [] => m
  | m, a, b :: bs => memPutBytes (memPut m a b) (a + 1) bs

/-- The `n` bytes MEM[a] to MEM[a+n-1], the lowest address first. -/
def memBytes (m : Memory) (a : Nat) : Nat → List Byte
  | 0 => []
  | n + 1 => memByte m a :: memBytes m (a + 1) n

/-- Addresses strictly rise along the list. -/
def memRising : Memory → Bool
  | [] => true
  | [_] => true
  | c :: d :: rest => decide (c.1 < d.1) && memRising (d :: rest)

/-- The canonical form of MEM: addresses strictly rise, each lies in the address space, and no cell holds what an
unlisted address reads as. -/
def memWf (m : Memory) : Bool :=
  memRising m && m.all fun c => decide (c.1 < Config.memSize) && c.2 != unlistedByte c.1

/-! ### Fetching and faulting -/

/-- The word at `a`, big-endian: MEM[a] is the high byte (20_memory.md R56, R58). -/
def wordAt (m : Memory) (a : Nat) : Word := wordOfBytes (memByte m a) (memByte m (a + 1))

/-- `Fetch()` (20_memory.md R56, R57): pc must be even, then both bytes must lie in the address space. -/
def fetch (s : State) : Except Fault Word :=
  if s.pc.toNat % 2 = 1 then .error (.operandRangeError s.pc none)
  else if s.pc.toNat + 2 > Config.memSize then .error (.operandRangeError s.pc none)
  else .ok (wordAt s.mem s.pc.toNat)

/-- The `OperandRangeError` an instruction raises, with the pc of the step and the word at it
(60_exceptions.md R202, R204). -/
def rangeFault (s : State) : Fault := .operandRangeError s.pc (fetch s).toOption

/-- FAULT ENTRY, shared by all faults (60_exceptions.md R205): PHASE <- Faulted and no further state mutation; nothing
is saved and control goes nowhere. There is no return from it (R206). -/
def State.enterFault (s : State) : State := { s with phase := .faulted }

/-- `MemRead(addr, n)` (20_memory.md R53): the range is checked as natural numbers, then the bytes are read. -/
def memRead (s : State) (addr n : Nat) : Except Fault (List Byte) :=
  if addr + n > Config.memSize then .error (rangeFault s) else .ok (memBytes s.mem addr n)

/-- `MemWrite(addr, n, bytes)` for `n` the number of bytes (20_memory.md R54): both checks, then the bytes. -/
def memWrite (s : State) (addr : Nat) (bytes : List Byte) : Except Fault State :=
  if addr + bytes.length > Config.memSize then .error (rangeFault s)
  else if addr < Config.fontEnd then .error (rangeFault s)
  else .ok { s with mem := memPutBytes s.mem addr bytes }

/-! ### Registers and pc -/

/-- V[x]. -/
def reg (s : State) (x : Reg) : Byte := s.v[x.val]

/-- V[x] <- b. -/
def setReg (s : State) (x : Reg) (b : Byte) : State := { s with v := s.v.set x.val b }

/-- V[k] <- bs[0], V[k+1] <- bs[1], ..., as far as there are registers (42_index_and_memory.md R146). -/
def setRegsFrom : State → Nat → List Byte → State
  | s, _, [] => s
  | s, k, b :: bs => setRegsFrom (if h : k < Config.nreg then setReg s ⟨k, h⟩ b else s) (k + 1) bs

/-- I <- w. -/
def setIndex (s : State) (w : Word) : State := { s with i := w }

/-- pc <- target. -/
def setPc (s : State) (target : Word) : State := { s with pc := target }

/-- pc <- pc + 2, "All other opcodes advance PC by 2 after executing" (10_state.md R25). -/
def advance (s : State) : State := setPc s (s.pc + 2)

/-- pc <- c ? pc + 4 : pc + 2, the conditional skips (10_state.md R25). -/
def skipWhen (c : Bool) (s : State) : State := setPc s (if c then s.pc + 4 else s.pc + 2)

/-! ### The call stack -/

/-- `Push(v)` (10_state.md R30). -/
def push (s : State) (w : Word) : Except Fault State :=
  if h : s.sp.val < Config.stackDepth then
    .ok { s with stack := s.stack.set s.sp.val w, sp := ⟨s.sp.val + 1, Nat.succ_lt_succ h⟩ }
  else .error (rangeFault s)

/-- `Pop()` (10_state.md R31): the newest valid entry and the state with SP lowered; the slot keeps its value. -/
def pop (s : State) : Except Fault (Word × State) :=
  if h : s.sp.val = 0 then .error (rangeFault s)
  else
    have below : s.sp.val - 1 < Config.stackDepth := by have := s.sp.isLt; omega
    .ok (s.stack[s.sp.val - 1], { s with sp := ⟨s.sp.val - 1, Nat.lt_succ_of_lt below⟩ })

/-! ### The framebuffer (10_state.md R34 to R36) -/

/-- The byte of FB that holds pixel (px, py). -/
def pixelByte (px : Fin Config.width) (py : Fin Config.height) : Fin Config.fbBytes :=
  ⟨py.val * 8 + px.val / 8, by have := px.isLt; have := py.isLt; simp only [Config.width, Config.height, Config.fbBytes] at *; omega⟩

/-- `Pixel(px, py)`: the most significant bit of a byte is its leftmost pixel. -/
def pixel (fb : Framebuffer) (px : Fin Config.width) (py : Fin Config.height) : Bool :=
  fb[(pixelByte px py).val].getLsbD (7 - px.val % 8)

/-- A byte with bit `k` replaced by `b`. -/
def setBit (byte : Byte) (k : Nat) (b : Bool) : Byte :=
  if b then byte ||| (1#8 <<< k) else byte &&& ~~~(1#8 <<< k)

/-- `SetPixel(px, py, b)`. -/
def setPixel (fb : Framebuffer) (px : Fin Config.width) (py : Fin Config.height) (b : Bool) : Framebuffer :=
  fb.set (pixelByte px py).val (setBit fb[(pixelByte px py).val] (7 - px.val % 8) b)

/-- Display column `c` taken modulo WIDTH. -/
def wrapX (c : Nat) : Fin Config.width := ⟨c % Config.width, Nat.mod_lt _ (by decide)⟩

/-- Display row `r` taken modulo HEIGHT. -/
def wrapY (r : Nat) : Fin Config.height := ⟨r % Config.height, Nat.mod_lt _ (by decide)⟩

/-- A framebuffer being drawn on, with the collision seen so far (`coll` of 43_display.md R152). -/
structure Canvas where
  fb : Framebuffer
  coll : Bool
  deriving DecidableEq, Repr

/-- One sprite bit at column `c` of the sprite row drawn at display row `py`: a bit of 1 flips its pixel, and a pixel
that was set is a collision (43_display.md R152, R153, R155). -/
def drawBit (x0 : Nat) (py : Fin Config.height) (row : Byte) (d : Canvas) (c : Nat) : Canvas :=
  if row.getLsbD (7 - c) then
    { fb := setPixel d.fb (wrapX (x0 + c)) py (!pixel d.fb (wrapX (x0 + c)) py)
      coll := pixel d.fb (wrapX (x0 + c)) py || d.coll }
  else d

/-- One sprite row of eight bits, left first. -/
def drawRow (x0 : Nat) (py : Fin Config.height) (d : Canvas) (row : Byte) : Canvas :=
  (List.range 8).foldl (drawBit x0 py row) d

/-- The sprite rows, top first, the first at display row `y` modulo HEIGHT. -/
def drawRows (x0 : Nat) : Nat → Canvas → List Byte → Canvas
  | _, d, [] => d
  | y, d, row :: rows => drawRows x0 (y + 1) (drawRow x0 (wrapY y) d row) rows

/-! ### The random-byte source -/

/-- The byte the next draw gives: the next byte of the given sequence, or the free value where none is given
(49_host_interface.md R185; log 4). -/
def nextRandom (s : State) : Byte :=
  match s.env.randomBytes with
  | b :: _ => b
  | [] => Config.randomByte s.env.draws

/-- The state after one draw: the byte is consumed and the draw counted. -/
def consumeRandom (s : State) : State :=
  { s with env := { s.env with randomBytes := s.env.randomBytes.tail, draws := s.env.draws + 1 } }

end Sys2Proof.Machine
end

