-- ==== Sys2Proof/Machine/Operands.lean ====
section
/-! DEFINITION. The operand forms: the data address, the font address, the decimal digits, the block of registers and
the test of a key. There is one addressing mode for data, through I, the address of element `k` being I + k as a
natural number (42_index_and_memory.md R140). -/

namespace Sys2Proof.Machine

/-- The address of element 0 of a data access: I as a natural number. -/
def dataAddress (s : State) : Nat := s.i.toNat

/-- `font_sprite_address(d)` (20_memory.md R62). -/
def fontSpriteAddress (d : Nat) : Nat := Config.fontBase + Config.fontGlyphBytes * d

/-- The glyph address of the low nibble of a register value (42_index_and_memory.md R143). -/
def glyphAddress (b : Byte) : Word := BitVec.ofNat 16 (fontSpriteAddress (b.extractLsb' 0 4).toNat)

/-- The hundreds, tens and ones digits of a byte, in the order they are stored (42_index_and_memory.md R144). -/
def decimalDigits (b : Byte) : List Byte :=
  [BitVec.ofNat 8 (b.toNat / 100), BitVec.ofNat 8 (b.toNat / 10 % 10), BitVec.ofNat 8 (b.toNat % 10)]

/-- V[0], V[1], ..., V[x] (42_index_and_memory.md R145). -/
def regsUpTo (s : State) (x : Reg) : List Byte := s.v.toList.take (x.val + 1)

/-- Whether a register value is a held key: the whole byte is tested, and 16 to 255 are no keys
(44_timers_and_keys.md R163). -/
def keyHeld (s : State) (b : Byte) : Bool :=
  if h : b.toNat < Config.nkeys then s.held[b.toNat] else false

/-- The target of `JP V0,addr`: the sum of V[0] and `nnn` as natural numbers, at most 0x10FE, so 16 bits hold it
(40_control_flow.md R108). -/
def offsetTarget (s : State) (nnn : Addr12) : Word := (reg s 0).setWidth 16 + nnn.setWidth 16

end Sys2Proof.Machine
end

