-- ==== Sys2Proof/Machine/ControlFlow.lean ====
section
/-! DEFINITION. Meanings of the control transfers and of the conditional skips on registers (40_control_flow.md). No
target is checked when pc is set: the next fetch does that (R100; 20_memory.md R55). -/

namespace Sys2Proof.Machine

/-- What a meaning answers. -/
abbrev Answer := Host.Outcome State Fault Refusal

/-- `RET` (R101): pc becomes the popped return address, no implicit +2. -/
def execRet (s : State) : Answer :=
  match pop s with
  | .ok (t, s') => .next (setPc s' t)
  | .error f => .fault f

/-- `JP addr` (R102). -/
def execJpAddr (nnn : Addr12) (s : State) : Answer := .next (setPc s (nnn.setWidth 16))

/-- `CALL addr` (R103): the address after this instruction is pushed. -/
def execCallAddr (nnn : Addr12) (s : State) : Answer :=
  match push s (s.pc + 2) with
  | .ok s' => .next (setPc s' (nnn.setWidth 16))
  | .error f => .fault f

/-- `SE Vx,byte` (R104). -/
def execSeVxByte (x : Reg) (kk : Byte) (s : State) : Answer := .next (skipWhen (reg s x == kk) s)

/-- `SE Vx,Vy` (R105). -/
def execSeVxVy (x y : Reg) (s : State) : Answer := .next (skipWhen (reg s x == reg s y) s)

/-- `SNE Vx,byte` (R106). -/
def execSneVxByte (x : Reg) (kk : Byte) (s : State) : Answer := .next (skipWhen (reg s x != kk) s)

/-- `SNE Vx,Vy` (R107). -/
def execSneVxVy (x y : Reg) (s : State) : Answer := .next (skipWhen (reg s x != reg s y) s)

/-- `JP V0,addr` (R108): the unreduced sum of V[0] and `nnn`. -/
def execJpV0Addr (nnn : Addr12) (s : State) : Answer := .next (setPc s (offsetTarget s nnn))

end Sys2Proof.Machine
end

