-- ==== Sys2Proof/Machine/Flags.lean ====
section
/-! DEFINITION. The values the six flag-writing instructions put into VF (the table of 10_state.md R40). -/

namespace Sys2Proof.Machine

/-- A condition as a flag value: 1 when it holds, else 0 (00_scope.md section 6.1). -/
def flagOf (c : Bool) : Byte := if c then 1 else 0

/-- `ADD Vx,Vy`: the carry out of bit 7 (41_load_and_alu.md R124). -/
def carryFlag (a b : Byte) : Byte := flagOf (decide (a.toNat + b.toNat > 255))

/-- `SUB` and `SUBN`: NOT borrow of `a - b`, 1 for equal operands (41_load_and_alu.md R128, R129). -/
def notBorrowFlag (a b : Byte) : Byte := flagOf (decide (a.toNat ≥ b.toNat))

/-- `SHR`: the bit shifted out at the right (41_load_and_alu.md R130). -/
def lowBitFlag (a : Byte) : Byte := flagOf (a.getLsbD 0)

/-- `SHL`: the bit shifted out at the left (41_load_and_alu.md R131). -/
def highBitFlag (a : Byte) : Byte := flagOf (a.getLsbD 7)

/-- `DRW`: 1 when a set pixel was cleared, else 0 (43_display.md R153). -/
def collisionFlag (coll : Bool) : Byte := flagOf coll

end Sys2Proof.Machine
end

