-- ==== Sys2Proof/Machine/Display.lean ====
section
/-! DEFINITION. Meanings of CLS and DRW, the display compositor (43_display.md). -/

namespace Sys2Proof.Machine

/-- `CLS` (R151): every framebuffer byte becomes 0; VF is not written. -/
def execCls (s : State) : Answer := .next (advance { s with fb := Vector.replicate Config.fbBytes 0 })

/-- The framebuffer and the collision after the sprite `rows` is drawn with its origin at V[x], V[y], each reduced
modulo the display's size (R152, R154). -/
def drawSprite (s : State) (x y : Reg) (rows : List Byte) : Canvas :=
  drawRows (wrapX (reg s x).toNat).val (wrapY (reg s y).toNat).val { fb := s.fb, coll := false } rows

/-- `DRW Vx,Vy,n` (R152): the sprite is read first, so a fault draws nothing; V[x] and V[y] are read before VF is
written. `n` = 0 is no DRW and is the `DecodeError` of its word (R157; 30_encoding.md R80); the decoder never gives it. -/
def execDrwVxVyN (x y : Reg) (n : Nibble) (s : State) : Answer :=
  if n = 0#4 then .fault (.decodeError s.pc (encode (.drwVxVyN x y n)))
  else
    match memRead s (dataAddress s) n.toNat with
    | .ok rows =>
      .next (advance (setReg { s with fb := (drawSprite s x y rows).fb } .flag
        (collisionFlag (drawSprite s x y rows).coll)))
    | .error f => .fault f

end Sys2Proof.Machine
end

