-- ==== Sys2Proof/Machine/IndexMem.lean ====
section
/-! DEFINITION. Meanings of the index-register and memory-transfer instructions (42_index_and_memory.md). No
instruction here checks I when it writes it, none changes I after a transfer, and an access fault comes before any
change (R140; 20_memory.md R54, R55). -/

namespace Sys2Proof.Machine

/-- `LD I,addr` (R141). -/
def execLdIAddr (nnn : Addr12) (s : State) : Answer := .next (advance (setIndex s (nnn.setWidth 16)))

/-- `ADD I,Vx` (R142): modulo 2^16, no flag. -/
def execAddIVx (x : Reg) (s : State) : Answer :=
  .next (advance (setIndex s (s.i + (reg s x).setWidth 16)))

/-- `LD F,Vx` (R143): the glyph address of the low nibble. -/
def execLdFVx (x : Reg) (s : State) : Answer := .next (advance (setIndex s (glyphAddress (reg s x))))

/-- Stores the bytes at I and advances, or faults with nothing stored. -/
def storeAtIndex (s : State) (bytes : List Byte) : Answer :=
  match memWrite s (dataAddress s) bytes with
  | .ok s' => .next (advance s')
  | .error f => .fault f

/-- `LD B,Vx` (R144): the three decimal digits, hundreds first. -/
def execLdBVx (x : Reg) (s : State) : Answer := storeAtIndex s (decimalDigits (reg s x))

/-- `LD [I],Vx` (R145): V[0] to V[x] at I and up. -/
def execLdMemVx (x : Reg) (s : State) : Answer := storeAtIndex s (regsUpTo s x)

/-- `LD Vx,[I]` (R146): V[0] to V[x] from I and up. -/
def execLdVxMem (x : Reg) (s : State) : Answer :=
  match memRead s (dataAddress s) (x.val + 1) with
  | .ok bs => .next (advance (setRegsFrom s 0 bs))
  | .error f => .fault f

end Sys2Proof.Machine
end

