-- ==== Sys2Proof/Machine/LoadAlu.lean ====
section
/-! DEFINITION. Meanings of the register loads, the arithmetic, logic and shift instructions and RND
(41_load_and_alu.md). Both operands are read before any write; where an instruction writes VF and V[x], the writes
stand in the order its rule lists them, so that the later one prevails when x = 15 (R120; 00_scope.md R8; log 1). -/

namespace Sys2Proof.Machine

/-- V[x] <- b; pc <- pc + 2: a result without a flag. -/
def writeResult (s : State) (x : Reg) (b : Byte) : Answer := .next (advance (setReg s x b))

/-- V[15] <- flag; V[x] <- b; pc <- pc + 2: the order of SUB, SUBN, SHR and SHL (R128 to R131). -/
def writeFlagThenResult (s : State) (x : Reg) (flag b : Byte) : Answer :=
  .next (advance (setReg (setReg s .flag flag) x b))

/-- V[x] <- b; V[15] <- flag; pc <- pc + 2: the order of ADD (R124). -/
def writeResultThenFlag (s : State) (x : Reg) (b flag : Byte) : Answer :=
  .next (advance (setReg (setReg s x b) .flag flag))

/-- `LD Vx,byte` (R121). -/
def execLdVxByte (x : Reg) (kk : Byte) (s : State) : Answer := writeResult s x kk

/-- `LD Vx,Vy` (R122). -/
def execLdVxVy (x y : Reg) (s : State) : Answer := writeResult s x (reg s y)

/-- `ADD Vx,byte` (R123): modulo 256, no flag. -/
def execAddVxByte (x : Reg) (kk : Byte) (s : State) : Answer := writeResult s x (reg s x + kk)

/-- `ADD Vx,Vy` (R124). -/
def execAddVxVy (x y : Reg) (s : State) : Answer :=
  writeResultThenFlag s x (reg s x + reg s y) (carryFlag (reg s x) (reg s y))

/-- `OR Vx,Vy` (R125): VF unaffected. -/
def execOrVxVy (x y : Reg) (s : State) : Answer := writeResult s x (reg s x ||| reg s y)

/-- `AND Vx,Vy` (R126): VF unaffected. -/
def execAndVxVy (x y : Reg) (s : State) : Answer := writeResult s x (reg s x &&& reg s y)

/-- `XOR Vx,Vy` (R127): VF unaffected. -/
def execXorVxVy (x y : Reg) (s : State) : Answer := writeResult s x (reg s x ^^^ reg s y)

/-- `SUB Vx,Vy` (R128). -/
def execSubVxVy (x y : Reg) (s : State) : Answer :=
  writeFlagThenResult s x (notBorrowFlag (reg s x) (reg s y)) (reg s x - reg s y)

/-- `SUBN Vx,Vy` (R129). -/
def execSubnVxVy (x y : Reg) (s : State) : Answer :=
  writeFlagThenResult s x (notBorrowFlag (reg s y) (reg s x)) (reg s y - reg s x)

/-- `SHR Vx` (R130): logical, by one, of V[x] itself. -/
def execShrVx (x : Reg) (s : State) : Answer :=
  writeFlagThenResult s x (lowBitFlag (reg s x)) (reg s x >>> 1)

/-- `SHL Vx` (R131): by one, of V[x] itself. -/
def execShlVx (x : Reg) (s : State) : Answer :=
  writeFlagThenResult s x (highBitFlag (reg s x)) (reg s x <<< 1)

/-- `RND Vx,byte` (R132): one draw, consumed whatever `kk` is. -/
def execRndVxByte (x : Reg) (kk : Byte) (s : State) : Answer :=
  writeResult (consumeRandom s) x (nextRandom s &&& kk)

end Sys2Proof.Machine
end

