-- ==== Sys2Proof/Machine/TimersKeys.lean ====
section
/-! DEFINITION. Meanings of the timer and key instructions (44_timers_and_keys.md). None raises a fault. -/

namespace Sys2Proof.Machine

/-- `LD Vx,DT` (R160). -/
def execLdVxDT (x : Reg) (s : State) : Answer := .next (advance (setReg s x s.dt))

/-- `LD DT,Vx` (R161). -/
def execLdDTVx (x : Reg) (s : State) : Answer := .next (advance { s with dt := reg s x })

/-- `LD ST,Vx` (R162). -/
def execLdSTVx (x : Reg) (s : State) : Answer := .next (advance { s with st := reg s x })

/-- `SKP Vx` (R163): HELD is read, EDGE is not. -/
def execSkpVx (x : Reg) (s : State) : Answer := .next (skipWhen (keyHeld s (reg s x)) s)

/-- `SKNP Vx` (R164). -/
def execSknpVx (x : Reg) (s : State) : Answer := .next (skipWhen (!keyHeld s (reg s x)) s)

/-- `LD Vx,K` (R165): with EDGE empty the outcome is Retry, the state unchanged (the indicator itself is
`Reply.retry`); else the most recently latched key is consumed. -/
def execLdVxK (x : Reg) (s : State) : Answer :=
  match s.edge.getLast? with
  | none => .next s
  | some k => .next (advance (setReg { s with edge := s.edge.dropLast } x (BitVec.ofNat 8 k.val)))

end Sys2Proof.Machine
end

