-- ==== Sys2Proof/Machine/HostInterface.lean ====
section
/-! DEFINITION. The step operation, the timer decay engine and the host operations (49_host_interface.md): what each
event of the interface does, its reply, and the state it leaves. -/

namespace Sys2Proof.Machine

/-- `step()` (R174, R176): in phase Loaded, fetch, decode, execute; in another phase there is no such move. -/
def interpret (s : State) : Answer :=
  match s.phase with
  | .constructed => .refused .stepBeforeLoad
  | .faulted => .refused .machineFaulted
  | .loaded =>
    match fetch s with
    | .error f => .fault f
    | .ok w =>
      match decode w with
      | .error _ => .fault (.decodeError s.pc w)
      | .ok i => exec i s

/-- One saturating decrement: `max(value - 1, 0)` (R178). -/
def decay (b : Byte) : Byte := if b = 0 then 0 else b - 1

/-- `tick()` (R178): one event decrements both timers. -/
def tick (s : State) : State := { s with dt := decay s.dt, st := decay s.st }

/-- A key becomes the most recently latched (R180). -/
def latch (edge : List Key) (k : Key) : List Key := edge.filter (· != k) ++ [k]

/-- `poll_input(held, pressed)` (R180): HELD is replaced, EDGE accumulates. -/
def pollInput (held : KeySet) (pressed : List Key) (s : State) : State :=
  { s with held := held, edge := pressed.foldl latch s.edge }

/-- `load(bytes)` (R172, R173): an image that does not fit faults before any byte is copied. -/
def loadImage (bytes : List Byte) (s : State) : Answer :=
  if bytes.length > Config.memSize - Config.loadBase then .fault (.loadError bytes.length)
  else .next { s with mem := memPutBytes s.mem Config.loadBase bytes, phase := .loaded }

/-- `construct()` (R170): every piece of the machine's state is as after reset; the inputs that wait outside stay. -/
def construct (s : State) : State := { State.reset with env := s.env }

/-- What an event does (the table of R171), with the refusals of the moves outside their phase (R171, R176;
60_exceptions.md R206). -/
def hostMove : Event → State → Answer
  | .step, s => interpret s
  | .tick, s => if s.phase = .faulted then .refused .machineFaulted else .next (tick s)
  | .pollInput held pressed, s =>
    if s.phase = .faulted then .refused .machineFaulted else .next (pollInput held pressed s)
  | .load bytes, s =>
    match s.phase with
    | .constructed => loadImage bytes s
    | .loaded => .refused .loadAgain
    | .faulted => .refused .machineFaulted
  | .construct, s => .next (construct s)
  | .readFramebuffer, s => .next s
  | .readTimers, s => .next s

/-- The result of an event (the table of R171; R174 for the three outcomes of a step). -/
inductive Reply where
  /-- The event was carried out and returns nothing (`load`: ok). -/
  | done
  /-- `Next`: the step executed its instruction. -/
  | next
  /-- `Retry`: the step found LD Vx,K with no pending key; the state is unchanged. -/
  | retry
  /-- The bytes FB[0] to FB[255] (R182). -/
  | framebuffer (bytes : Framebuffer)
  /-- DT and ST (R183). -/
  | timers (dt st : Byte)
  /-- `Fault(kind)`, or `LoadError`. -/
  | fault (f : Fault)
  /-- No such move. -/
  | refused (r : Refusal)
  deriving DecidableEq, Repr

/-- The retry indicator: the instruction at pc is LD Vx,K and no key is pending (44_timers_and_keys.md R165). -/
def retries (s : State) : Bool :=
  match fetch s with
  | .ok w =>
    match decode w with
    | .ok (.ldVxK _) => s.edge.isEmpty
    | _ => false
  | .error _ => false

/-- The reply of an event that was carried out. -/
def replyOf : Event → State → Reply
  | .step, s => if retries s then .retry else .next
  | .readFramebuffer, s => .framebuffer s.fb
  | .readTimers, s => .timers s.dt s.st
  | .tick, _ | .pollInput _ _, _ | .load _, _ | .construct, _ => .done

/-- An event with its reply and the state it leaves: a fault leaves the state as it was but for PHASE
(60_exceptions.md R205), a refusal leaves it as it was. -/
def fire (e : Event) (s : State) : Reply × State :=
  match hostMove e s with
  | .next t => (replyOf e s, t)
  | .fault f => (.fault f, s.enterFault)
  | .refused r => (.refused r, s)

/-- The event that comes next: the first of the agenda, or a `step()` when it is empty (log 3). -/
def nextEvent (s : State) : Event := s.env.agenda.headD .step

/-- The state with the first event of the agenda taken off it. -/
def takeEvent (s : State) : State := { s with env := { s.env with agenda := s.env.agenda.tail } }

/-- The state made ready to fetch: a program counts as loaded, no other event comes first, and pc, where no
instruction can be fetched at it, is the load base (log 6). -/
def readyToFetch (s : State) : State :=
  { s with
    phase := .loaded
    env := { s.env with agenda := [] }
    pc := if s.pc.toNat % 2 = 1 ∨ s.pc.toNat + 2 > Config.memSize then BitVec.ofNat 16 Config.loadBase else s.pc }

/-- The bytes at pc replaced, by whoever places a program (log 6). -/
def placeAtPc (s : State) (bytes : List Byte) : State := { s with mem := memPutBytes s.mem s.pc.toNat bytes }

end Sys2Proof.Machine
end

