-- ==== Sys2Proof/Machine/Step.lean ====
section
/-! DEFINITION. One step of the whole machine: the next event of the agenda, a `step()` of the interpreter when the
agenda is empty (00_scope.md R7; 49_host_interface.md R177; log 3). -/

namespace Sys2Proof.Machine

/-- One event, whichever agent it belongs to. -/
def step (s : State) : Host.Outcome State Fault Refusal := hostMove (nextEvent s) (takeEvent s)

/-- `s` with the instruction whose bits are `w` stored where the next step fetches, made ready to fetch it (log 6). -/
def State.withFetchWord (s : State) (nbits w : Nat) : State := placeAtPc (readyToFetch s) (tableBytes nbits w)

end Sys2Proof.Machine
end

