-- ==== Sys2Proof/Safety.lean ====
section
/-! DEFINITION. The terms claims are made in: what an instruction may change (`Footprint`, `Frame`), where it leaves pc,
which words are illegal, what a sprite covers, and the invariants of the machine. Written from the rules of spec/, not
from the meanings. -/

namespace Sys2Proof

open Sys2Proof.Machine

/-! ### What an instruction may change -/

/-- What one execution of an instruction may change besides pc. -/
structure Footprint where
  /-- The general registers it may write. -/
  regs : List Reg := []
  /-- Whether it may write I. -/
  index : Bool := false
  /-- Whether it may change STACK or SP. -/
  stack : Bool := false
  /-- Whether it may write DT. -/
  dt : Bool := false
  /-- Whether it may write ST. -/
  st : Bool := false
  /-- The addresses of MEM it stores to. -/
  cells : List Nat := []
  /-- Whether it may change FB. -/
  fb : Bool := false
  /-- Whether it may change EDGE. -/
  edge : Bool := false
  /-- Whether it draws a random byte. -/
  random : Bool := false
  deriving DecidableEq, Repr

/-- `t` is `s` outside the footprint and pc; HELD, PHASE and the agenda no instruction changes. -/
structure Frame (f : Footprint) (s t : State) : Prop where
  regs : ∀ r, r ∉ f.regs → reg t r = reg s r
  index : f.index = false → t.i = s.i
  stack : f.stack = false → t.stack = s.stack ∧ t.sp = s.sp
  dt : f.dt = false → t.dt = s.dt
  st : f.st = false → t.st = s.st
  mem : ∀ a, a ∉ f.cells → memByte t.mem a = memByte s.mem a
  fb : f.fb = false → t.fb = s.fb
  held : t.held = s.held
  edge : f.edge = false → t.edge = s.edge
  phase : t.phase = s.phase
  agenda : t.env.agenda = s.env.agenda
  random : f.random = false → t.env = s.env

/-- V[0] to V[x]: the registers of a block transfer (42_index_and_memory.md R146). -/
def blockRegs (x : Reg) : List Reg := (List.finRange Config.nreg).filter fun r => decide (r.val ≤ x.val)

/-- The addresses `a` to `a + n - 1`. -/
def runOfCells (a n : Nat) : List Nat := List.range' a n

/-- What each instruction may change, by its rule (10_state.md R22, R23, R28, R32, R33, R35, R38, R40; 20_memory.md
R51). -/
def footprint (i : Instr) (s : State) : Footprint :=
  match i with
  | .cls => { fb := true }
  | .ret | .callAddr _ => { stack := true }
  | .jpAddr _ | .jpV0Addr _ => {}
  | .seVxByte _ _ | .seVxVy _ _ | .sneVxByte _ _ | .sneVxVy _ _ | .skpVx _ | .sknpVx _ => {}
  | .ldVxByte x _ | .ldVxVy x _ | .addVxByte x _ | .ldVxDT x => { regs := [x] }
  | .orVxVy x _ | .andVxVy x _ | .xorVxVy x _ => { regs := [x] }
  | .addVxVy x _ | .subVxVy x _ | .subnVxVy x _ | .shrVx x | .shlVx x => { regs := [x, .flag] }
  | .rndVxByte x _ => { regs := [x], random := true }
  | .drwVxVyN _ _ _ => { regs := [.flag], fb := true }
  | .ldIAddr _ | .addIVx _ | .ldFVx _ => { index := true }
  | .ldBVx _ => { cells := runOfCells (dataAddress s) 3 }
  | .ldMemVx x => { cells := runOfCells (dataAddress s) (x.val + 1) }
  | .ldVxMem x => { regs := blockRegs x }
  | .ldDTVx _ => { dt := true }
  | .ldSTVx _ => { st := true }
  | .ldVxK x => { regs := [x], edge := true }

/-! ### Where an instruction leaves pc -/

/-- The PC-advance policy of 10_state.md R25: the control transfers set pc to their target, the conditional skips
advance it by 4 when the condition holds, else by 2, the key wait keeps it while no key is pending, and all others
advance it by 2. -/
def pcAfter (i : Instr) (s : State) : Word :=
  match i with
  | .jpAddr nnn | .callAddr nnn => nnn.setWidth 16
  | .jpV0Addr nnn => BitVec.ofNat 16 ((reg s 0).toNat + nnn.toNat)
  | .ret => s.stack.toList.getD (s.sp.val - 1) 0
  | .seVxByte x kk => if reg s x = kk then s.pc + 4 else s.pc + 2
  | .seVxVy x y => if reg s x = reg s y then s.pc + 4 else s.pc + 2
  | .sneVxByte x kk => if reg s x = kk then s.pc + 2 else s.pc + 4
  | .sneVxVy x y => if reg s x = reg s y then s.pc + 2 else s.pc + 4
  | .skpVx x => if keyHeld s (reg s x) then s.pc + 4 else s.pc + 2
  | .sknpVx x => if keyHeld s (reg s x) then s.pc + 2 else s.pc + 4
  | .ldVxK _ => if s.edge = [] then s.pc else s.pc + 2
  | .cls | .ldVxByte _ _ | .ldVxVy _ _ | .ldIAddr _ | .addVxByte _ _ | .addVxVy _ _ => s.pc + 2
  | .orVxVy _ _ | .andVxVy _ _ | .xorVxVy _ _ | .subVxVy _ _ | .subnVxVy _ _ => s.pc + 2
  | .shrVx _ | .shlVx _ | .rndVxByte _ _ | .drwVxVyN _ _ _ | .ldVxDT _ | .ldDTVx _ => s.pc + 2
  | .ldSTVx _ | .addIVx _ | .ldFVx _ | .ldBVx _ | .ldMemVx _ | .ldVxMem _ => s.pc + 2

/-! ### Illegal words, and the shifts -/

/-- The illegal words, line by line of the table of 30_encoding.md R77, on the number of the word. -/
def illegalWord (w : Word) : Bool :=
  let op := w.toNat / 4096
  let n := w.toNat % 16
  let kk := w.toNat % 256
  (op == 0 && w.toNat != 0x00E0 && w.toNat != 0x00EE) || (op == 5 && n != 0) ||
    (op == 8 && (decide (8 ≤ n) && n != 14)) || (op == 9 && n != 0) || (op == 13 && n == 0) ||
    (op == 14 && kk != 0x9E && kk != 0xA1) ||
    (op == 15 && !([0x07, 0x0A, 0x15, 0x18, 0x1E, 0x29, 0x33, 0x55, 0x65].contains kk))

/-- SHR or SHL: the two instructions with an ignored field (30_encoding.md R79). -/
def isShift : Instr → Bool
  | .shrVx _ | .shlVx _ => true
  | .cls | .ret | .jpAddr _ | .callAddr _ | .ldIAddr _ | .jpV0Addr _ => false
  | .seVxByte _ _ | .sneVxByte _ _ | .ldVxByte _ _ | .addVxByte _ _ | .rndVxByte _ _ => false
  | .seVxVy _ _ | .sneVxVy _ _ | .ldVxVy _ _ | .addVxVy _ _ | .orVxVy _ _ | .andVxVy _ _ => false
  | .xorVxVy _ _ | .subVxVy _ _ | .subnVxVy _ _ | .drwVxVyN _ _ _ => false
  | .skpVx _ | .sknpVx _ | .ldVxDT _ | .ldDTVx _ | .ldSTVx _ | .addIVx _ => false
  | .ldFVx _ | .ldBVx _ | .ldMemVx _ | .ldVxMem _ | .ldVxK _ => false

/-! ### Instruction-level faults -/

/-- The conditions c to h of 60_exceptions.md R202: when executing the instruction is an `OperandRangeError`. -/
def rangeFaults (i : Instr) (s : State) : Bool :=
  match i with
  | .callAddr _ => s.sp.val == Config.stackDepth
  | .ret => s.sp.val == 0
  | .drwVxVyN _ _ n => decide (dataAddress s + n.toNat > Config.memSize)
  | .ldBVx _ => decide (dataAddress s + 3 > Config.memSize) || decide (dataAddress s < Config.fontEnd)
  | .ldMemVx x =>
    decide (dataAddress s + x.val + 1 > Config.memSize) || decide (dataAddress s < Config.fontEnd)
  | .ldVxMem x => decide (dataAddress s + x.val + 1 > Config.memSize)
  | .cls | .jpAddr _ | .ldIAddr _ | .jpV0Addr _ => false
  | .seVxByte _ _ | .sneVxByte _ _ | .ldVxByte _ _ | .addVxByte _ _ | .rndVxByte _ _ => false
  | .seVxVy _ _ | .sneVxVy _ _ | .ldVxVy _ _ | .addVxVy _ _ | .orVxVy _ _ | .andVxVy _ _ => false
  | .xorVxVy _ _ | .subVxVy _ _ | .subnVxVy _ _ | .shrVx _ | .shlVx _ => false
  | .skpVx _ | .sknpVx _ | .ldVxDT _ | .ldDTVx _ | .ldSTVx _ | .addIVx _ | .ldFVx _ | .ldVxK _ => false

/-! ### The sprite -/

/-- Whether the sprite of `DRW Vx,Vy,n` has a bit of 1 over pixel (px, py): its column and row there, counted from
the wrapped origin, lie inside the sprite, and the bit is 1 (43_display.md R152 to R156). -/
def spriteBit (s : State) (x y : Reg) (n : Nibble) (px : Fin Config.width) (py : Fin Config.height) : Bool :=
  let c := (px.val + Config.width - (reg s x).toNat % Config.width) % Config.width
  let r := (py.val + Config.height - (reg s y).toNat % Config.height) % Config.height
  decide (c < 8) && decide (r < n.toNat) && (memByte s.mem (dataAddress s + r)).getLsbD (7 - c)

/-- Some pixel that is set lies under a sprite bit of 1, and so goes from set to clear (43_display.md R153). -/
def SpriteCollides (s : State) (x y : Reg) (n : Nibble) : Prop :=
  ∃ px py, pixel s.fb px py = true ∧ spriteBit s x y n px py = true

/-! ### Invariants -/

/-- The font region holds the font (20_memory.md R52, R54, R61). -/
def FontIntact (s : State) : Prop := ∀ a, a < Config.fontEnd → memByte s.mem a = fontTable.getD a 0

/-- EDGE holds each key once (10_state.md R38). -/
def EdgeDistinct (s : State) : Prop := s.edge.Nodup

/-- Every valid stack entry is an even address at most `MEM_SIZE` (10_state.md R26; 20_memory.md R57). -/
def ReturnsAligned (s : State) : Prop :=
  ∀ j (h : j < Config.stackDepth), j < s.sp.val → s.stack[j].toNat % 2 = 0 ∧ s.stack[j].toNat ≤ Config.memSize

/-- pc is one of the values a rule can assign: at most 0x10FE (10_state.md R26, R41). -/
def PcReachable (s : State) : Prop := s.pc.toNat ≤ 0x10FE

end Sys2Proof
end

