-- ==== Sys2Proof/Certificates/Slice0/Obligations.lean ====
section
/-! DEFINITION. The statements for the provers. Where a statement rests on one of the spec's own decisions D<n>
(spec/92_eei_decisions.md, log 1) or on a choice of the model (another log entry), its docstring says so. -/

open Sys2Proof Sys2Proof.Machine

/-! ### Encoding -/

/-- A few words, read by the map of 30_encoding.md R75; the patterns but CLS's rest on the spec's decision D15, the
two shifts with `y` not 0 on D14 and the DRW without rows on D12 (log 1). -/
def Obligations.SampleWordsDecode : Prop :=
  decode 0x00E0 = .ok .cls ∧ decode 0x1228 = .ok (.jpAddr 0x228) ∧ decode 0x3A42 = .ok (.seVxByte 10 0x42) ∧
  decode 0x81F4 = .ok (.addVxVy 1 15) ∧ decode 0x8126 = .ok (.shrVx 1) ∧ decode 0x81FE = .ok (.shlVx 1) ∧
  decode 0xD5A7 = .ok (.drwVxVyN 5 10 7) ∧ decode 0xE1A1 = .ok (.sknpVx 1) ∧ decode 0xF155 = .ok (.ldMemVx 1) ∧
  decode 0x0000 = .error .leadingZero ∧ decode 0x812F = .error .aluLowNibble ∧ decode 0xD010 = .error .drwNoRows

/-- 30_encoding.md R71: the fetched word is {MEM[pc], MEM[pc+1]}, and the fields are its bit slices. -/
def Obligations.FetchedWordFieldsAreBitSlices : Prop :=
  ∀ (s : State) (w : Word), fetch s = .ok w →
    w.toNat = (memByte s.mem s.pc.toNat).toNat * 256 + (memByte s.mem (s.pc.toNat + 1)).toNat ∧
    (fieldOp w).toNat = w.toNat / 4096 ∧ (fieldX w).val = w.toNat / 256 % 16 ∧
    (fieldY w).val = w.toNat / 16 % 16 ∧ (fieldN w).toNat = w.toNat % 16 ∧
    (fieldKk w).toNat = w.toNat % 256 ∧ (fieldNnn w).toNat = w.toNat % 4096 ∧
    (fieldOp w).toNat = (memByte s.mem s.pc.toNat).toNat / 16 ∧
    (fieldX w).val = (memByte s.mem s.pc.toNat).toNat % 16 ∧
    (fieldY w).val = (memByte s.mem (s.pc.toNat + 1)).toNat / 16 ∧
    (fieldN w).toNat = (memByte s.mem (s.pc.toNat + 1)).toNat % 16 ∧
    fieldKk w = memByte s.mem (s.pc.toNat + 1) ∧
    (fieldNnn w).toNat =
      (memByte s.mem s.pc.toNat).toNat % 16 * 256 + (memByte s.mem (s.pc.toNat + 1)).toNat

/-- 30_encoding.md R74: no word matches two rows of the opcode map (rows as R75 gives them, D15). -/
def Obligations.AtMostOneRowMatches : Prop :=
  ∀ (w : Word) (j k : Fin opcodeMap.length),
    rowAccepts w opcodeMap[j] = true → rowAccepts w opcodeMap[k] = true → j = k

/-- Decoding the word of any well-formed instruction gives the instruction back (30_encoding.md R86; D14, D15). -/
def Obligations.DecodeOfEncode : Prop :=
  ∀ i : Instr, wellFormed i = true → decode (encode i) = .ok i

/-- A word that decodes is the word of a well-formed instruction; for SHR and SHL up to the ignored `y` field, which
the encoder sets to 0 (30_encoding.md R79, R86; D14, D15). -/
def Obligations.EncodeOfDecode : Prop :=
  ∀ (w : Word) (i : Instr), decode w = .ok i →
    wellFormed i = true ∧ encode i = if isShift i = true then w &&& 0xFF0F else w

/-- The words that do not decode are exactly those of the table of 30_encoding.md R77 (D12, D14, D15). -/
def Obligations.IllegalWordsAreTheListed : Prop :=
  ∀ w : Word, (∃ r, decode w = .error r) ↔ illegalWord w = true

/-! ### The step -/

/-- One machine step is the event that comes first, taken off the agenda, or a `step()` where none waits
(49_host_interface.md R177; the agenda is the model's, log 3); and a `step()` in phase Loaded whose fetched word decodes
runs exactly the decoded instruction (R174). -/
def Obligations.StepRunsTheDecodedInstruction : Prop :=
  (∀ (s : State) (w : Word) (i : Instr), s.phase = .loaded → fetch s = .ok w → decode w = .ok i →
    (s.env.agenda = [] → step s = exec i s) ∧
    (∀ rest, s.env.agenda = .step :: rest →
      step s = exec i (takeEvent s) ∧ (takeEvent s).env.agenda = rest)) ∧
  (∀ (s : State) (e : Event) (rest : List Event), s.env.agenda = e :: rest →
    step s = hostMove e (takeEvent s) ∧ (takeEvent s).env.agenda = rest)

/-- A word placed by `withFetchWord` is what the very next step executes, in every state (the model's placing of a
program, log 6). -/
def Obligations.PlacedWordIsExecuted : Prop :=
  ∀ (s : State) (w : Nat) (i : Instr), w < 65536 → decodeTableWord 16 w = some i →
    step (s.withFetchWord 16 w) = exec i (s.withFetchWord 16 w)

/-- 20_memory.md R56, R57 and 60_exceptions.md R207: an odd pc, then a pc without room for a word, is an
`OperandRangeError` of the step, without a word; any other pc fetches (the odd pc by the spec's decision D8). -/
def Obligations.FetchFaultsAtOddOrHighPc : Prop :=
  ∀ s : State, s.phase = .loaded → s.env.agenda = [] →
    (s.pc.toNat % 2 = 1 → step s = .fault (.operandRangeError s.pc none)) ∧
    (s.pc.toNat % 2 = 0 → 4094 < s.pc.toNat → step s = .fault (.operandRangeError s.pc none)) ∧
    (s.pc.toNat % 2 = 0 → s.pc.toNat ≤ 4094 →
      fetch s = .ok (wordOfBytes (memByte s.mem s.pc.toNat) (memByte s.mem (s.pc.toNat + 1))))

/-- 60_exceptions.md R201: a step is a `DecodeError` exactly when the fetch succeeds and the word is one of the illegal
words (those of 30_encoding.md R77: D12, D14, D15). -/
def Obligations.DecodeErrorExactlyOnIllegalWords : Prop :=
  ∀ (s : State) (pc w : Word), s.phase = .loaded → s.env.agenda = [] →
    (step s = .fault (.decodeError pc w) ↔ pc = s.pc ∧ fetch s = .ok w ∧ illegalWord w = true)

/-- 60_exceptions.md R205: an event that faults leaves everything as it was but PHASE, which becomes Faulted. -/
def Obligations.FaultChangesPhaseAlone : Prop :=
  ∀ (e : Event) (s t : State) (f : Fault), fire e s = (.fault f, t) →
    t.phase = .faulted ∧ t.v = s.v ∧ t.i = s.i ∧ t.pc = s.pc ∧ t.stack = s.stack ∧ t.sp = s.sp ∧ t.dt = s.dt ∧
    t.st = s.st ∧ t.mem = s.mem ∧ t.fb = s.fb ∧ t.held = s.held ∧ t.edge = s.edge ∧ t.env = s.env

/-- 60_exceptions.md R202: a well-formed instruction faults exactly under the conditions c to h, and then with an
`OperandRangeError` at pc (the font halves of f and g are D16). -/
def Obligations.RangeFaultsExactlyAsListed : Prop :=
  ∀ (i : Instr) (s : State), wellFormed i = true →
    ((∃ f, exec i s = .fault f) ↔ rangeFaults i s = true) ∧
    (rangeFaults i s = true → exec i s = .fault (.operandRangeError s.pc (fetch s).toOption))

/-- No instruction is refused, in any state: there is one mode and no privileged instruction (60_exceptions.md R208,
R215). Every well-formed instruction completes wherever none of the fault conditions of R202 holds. -/
def Obligations.EveryInstructionExecutes : Prop :=
  ∀ (i : Instr) (s : State), (∀ r, exec i s ≠ .refused r) ∧
    (wellFormed i = true → rangeFaults i s = false → ∃ t, exec i s = .next t)

/-! ### The host's events -/

/-- 10_state.md R44 and 70_reset_and_hazards.md R230: the state after `construct`, whatever it was before. The font
bytes, the load base, and the zeros of V, I, SP, DT, ST and FB with the empty HELD and EDGE are the spec's decisions D2,
D3 and D22 (log 1). The last clause, that the state is `State.reset` with the waiting inputs kept, is the model's: it
gives each stack slot the 0 of log 2, and keeps the agenda (log 3) and the random inputs (log 4). -/
def Obligations.ConstructGivesTheResetState : Prop :=
  ∀ s : State, ∃ t, fire .construct s = (.done, t) ∧ t.phase = .constructed ∧ t.pc = 0x200 ∧
    (∀ r, reg t r = 0) ∧ t.i = 0 ∧ t.sp.val = 0 ∧ t.dt = 0 ∧ t.st = 0 ∧
    (∀ a, a < Config.memSize → memByte t.mem a = if a < 80 then fontTable.getD a 0 else 0) ∧
    (∀ px py, pixel t.fb px py = false) ∧ (∀ k : Key, t.held[k.val] = false) ∧ t.edge = [] ∧
    { State.reset with env := s.env } = t

/-- 49_host_interface.md R172: an image that fits is copied to LOAD_BASE and on, PHASE becomes Loaded, and nothing else
changes (images of odd or no length are accepted by D30; LOAD_BASE and MEM_SIZE are D1 and D2). -/
def Obligations.LoadCopiesTheImage : Prop :=
  ∀ (s : State) (bytes : List Byte), s.phase = .constructed → bytes.length ≤ 3584 →
    ∃ t, fire (.load bytes) s = (.done, t) ∧ t.phase = .loaded ∧
      (∀ j (h : j < bytes.length), memByte t.mem (512 + j) = bytes[j]) ∧
      (∀ a, a < 512 ∨ 512 + bytes.length ≤ a → memByte t.mem a = memByte s.mem a) ∧
      { t with mem := s.mem, phase := s.phase } = s

/-- 49_host_interface.md R173 and 60_exceptions.md R203: an image longer than MEM_SIZE - LOAD_BASE is a `LoadError`, no
byte is copied, and the machine is then Faulted (that a `LoadError` is fatal is the spec's decision D24, log 1; that it
carries the length of the image is the model's, log 5). -/
def Obligations.LoadOfTooLongImageFaults : Prop :=
  ∀ (s : State) (bytes : List Byte), s.phase = .constructed →
    Config.memSize - Config.loadBase < bytes.length →
    fire (.load bytes) s = (.fault (.loadError bytes.length), { s with phase := .faulted })

/-- 60_exceptions.md R206 and 49_host_interface.md R176: after a fault only `construct` and the reads are moves, and
they alone answer; before a load there is no step and after it no second load (D24, D26). -/
def Obligations.MovesOutsideTheirPhaseAreRefused : Prop :=
  ∀ s : State,
    (s.phase = .faulted →
      fire .step s = (.refused .machineFaulted, s) ∧ fire .tick s = (.refused .machineFaulted, s) ∧
      (∀ h p, fire (.pollInput h p) s = (.refused .machineFaulted, s)) ∧
      (∀ bytes, fire (.load bytes) s = (.refused .machineFaulted, s))) ∧
    (s.phase = .constructed → fire .step s = (.refused .stepBeforeLoad, s)) ∧
    (s.phase = .loaded → ∀ bytes, fire (.load bytes) s = (.refused .loadAgain, s))

/-- 49_host_interface.md R171, R178, R179: in phases Constructed and Loaded every tick is carried out and takes one off
each timer that is not 0; after `n` ticks each timer has gone down by `n`, and stays at 0; nothing else has changed (that
one tick decrements both is D23). -/
def Obligations.TicksCountDownAndStopAtZero : Prop :=
  (∀ s : State, s.phase ≠ .faulted →
    ∃ t, fire .tick s = (.done, t) ∧ t = tick s ∧
      t.dt.toNat = s.dt.toNat - 1 ∧ t.st.toNat = s.st.toNat - 1 ∧ { t with dt := s.dt, st := s.st } = s) ∧
  (∀ (n : Nat) (s : State), s.phase ≠ .faulted →
    ∃ t, (fun u => (fire .tick u).2)^[n] s = t ∧
      t.dt.toNat = s.dt.toNat - n ∧ t.st.toNat = s.st.toNat - n ∧ { t with dt := s.dt, st := s.st } = s) ∧
  (∀ (n : Nat) (s : State),
    (tick^[n] s).dt.toNat = s.dt.toNat - n ∧ (tick^[n] s).st.toNat = s.st.toNat - n ∧
    { tick^[n] s with dt := s.dt, st := s.st } = s)

/-- 49_host_interface.md R180: a poll replaces HELD; the pending keys that are not pressed again keep their order, and
the pressed ones follow as the most recently latched, in their order; nothing else changes (D21). -/
def Obligations.PollLatchesPressedKeysLast : Prop :=
  ∀ (s : State) (held : KeySet) (pressed : List Key), s.phase ≠ .faulted → pressed.Nodup →
    fire (.pollInput held pressed) s =
      (.done, { s with held := held, edge := s.edge.filter (fun k => decide (k ∉ pressed)) ++ pressed })

/-- 49_host_interface.md R182, R183: the two reads return FB, and DT and ST, in every phase, and change nothing (that
the host has no timer write is D31). -/
def Obligations.ReadsReturnStateUnchanged : Prop :=
  ∀ s : State, fire .readFramebuffer s = (.framebuffer s.fb, s) ∧ fire .readTimers s = (.timers s.dt s.st, s)

/-- 70_reset_and_hazards.md R241: no event raises DT but a construct or a step of LD DT,Vx. -/
def Obligations.DelayTimerFallsBetweenWrites : Prop :=
  ∀ (e : Event) (s t : State), hostMove e s = .next t → e ≠ .construct →
    (∀ w x, e = .step → fetch s = .ok w → decode w ≠ .ok (.ldDTVx x)) → t.dt.toNat ≤ s.dt.toNat

/-! ### Control transfer -/

/-- 40_control_flow.md R101. -/
def Obligations.RetReturnsToTheNewestEntry : Prop :=
  (∀ s : State, s.sp.val = 0 → exec .ret s = .fault (.operandRangeError s.pc (fetch s).toOption)) ∧
  (∀ (s : State) (h : s.sp.val - 1 < Config.stackDepth), s.sp.val ≠ 0 →
    ∃ t, exec .ret s = .next t ∧ t.pc = s.stack[s.sp.val - 1] ∧ t.sp.val = s.sp.val - 1 ∧ t.stack = s.stack ∧
      Frame { stack := true } s t)

/-- 40_control_flow.md R102, R108: the target is `nnn` itself, and the unreduced sum of V[0] and `nnn`. -/
def Obligations.JumpsSetPcToTheirTarget : Prop :=
  ∀ (s : State) (nnn : Addr12),
    (∃ t, exec (.jpAddr nnn) s = .next t ∧ t.pc.toNat = nnn.toNat ∧ Frame {} s t) ∧
    (∃ t, exec (.jpV0Addr nnn) s = .next t ∧ t.pc.toNat = (reg s 0).toNat + nnn.toNat ∧ Frame {} s t)

/-- 40_control_flow.md R103. -/
def Obligations.CallPushesTheNextAddress : Prop :=
  (∀ (s : State) (nnn : Addr12), s.sp.val = 16 →
    exec (.callAddr nnn) s = .fault (.operandRangeError s.pc (fetch s).toOption)) ∧
  (∀ (s : State) (nnn : Addr12), s.sp.val < 16 →
    ∃ t, exec (.callAddr nnn) s = .next t ∧ t.pc.toNat = nnn.toNat ∧ t.sp.val = s.sp.val + 1 ∧
      (∀ j (h : j < Config.stackDepth), t.stack[j] = if j = s.sp.val then s.pc + 2 else s.stack[j]) ∧
      Frame { stack := true } s t)

/-- 40_control_flow.md R103 and R101: a CALL and the RET that follows it come back to the address after the CALL. -/
def Obligations.RetUndoesCall : Prop :=
  ∀ (s t : State) (nnn : Addr12) (pc : Word), exec (.callAddr nnn) s = .next t →
    ∃ u, exec .ret (setPc t pc) = .next u ∧ u.pc = s.pc + 2 ∧ u.sp = s.sp ∧
      (∀ j (h : j < Config.stackDepth), j < s.sp.val → u.stack[j] = s.stack[j])

/-- 40_control_flow.md R104 to R107. -/
def Obligations.SkipsCompareRegistersAndBytes : Prop :=
  ∀ (s : State) (x y : Reg) (kk : Byte),
    (∃ t, exec (.seVxByte x kk) s = .next t ∧
      t.pc = (if (reg s x).toNat = kk.toNat then s.pc + 4 else s.pc + 2) ∧ Frame {} s t) ∧
    (∃ t, exec (.seVxVy x y) s = .next t ∧
      t.pc = (if (reg s x).toNat = (reg s y).toNat then s.pc + 4 else s.pc + 2) ∧ Frame {} s t) ∧
    (∃ t, exec (.sneVxByte x kk) s = .next t ∧
      t.pc = (if (reg s x).toNat = kk.toNat then s.pc + 2 else s.pc + 4) ∧ Frame {} s t) ∧
    (∃ t, exec (.sneVxVy x y) s = .next t ∧
      t.pc = (if (reg s x).toNat = (reg s y).toNat then s.pc + 2 else s.pc + 4) ∧ Frame {} s t)

/-- 10_state.md R25, for every instruction: where a completed instruction leaves pc; that a step of the key wait with no
key pending keeps pc and returns the retry indicator; and that a step that faults leaves pc unchanged. -/
def Obligations.PcAdvancePolicy : Prop :=
  (∀ (i : Instr) (s t : State), exec i s = .next t → t.pc = pcAfter i s) ∧
  (∀ (s : State) (w : Word) (x : Reg), s.phase = .loaded → fetch s = .ok w → decode w = .ok (.ldVxK x) →
    s.edge = [] → ∃ t, fire .step s = (.retry, t) ∧ t.pc = s.pc) ∧
  (∀ (s t : State) (f : Fault), fire .step s = (.fault f, t) → t.pc = s.pc)

/-! ### Loads, arithmetic, logic, shifts, random -/

/-- 41_load_and_alu.md R121, R122. -/
def Obligations.RegisterLoadsCopy : Prop :=
  ∀ (s : State) (x y : Reg) (kk : Byte),
    (∃ t, exec (.ldVxByte x kk) s = .next t ∧ reg t x = kk ∧ t.pc = s.pc + 2 ∧ Frame { regs := [x] } s t) ∧
    (∃ t, exec (.ldVxVy x y) s = .next t ∧ reg t x = reg s y ∧ t.pc = s.pc + 2 ∧ Frame { regs := [x] } s t)

/-- 41_load_and_alu.md R123: the sum modulo 256, no flag. -/
def Obligations.AddByteWrapsWithoutFlag : Prop :=
  ∀ (s : State) (x : Reg) (kk : Byte),
    ∃ t, exec (.addVxByte x kk) s = .next t ∧ (reg t x).toNat = ((reg s x).toNat + kk.toNat) % 256 ∧
      t.pc = s.pc + 2 ∧ Frame { regs := [x] } s t

/-- 41_load_and_alu.md R125, R126, R127: bit by bit, VF unaffected. -/
def Obligations.LogicIsBitwiseWithoutFlag : Prop :=
  ∀ (s : State) (x y : Reg),
    (∃ t, exec (.orVxVy x y) s = .next t ∧ t.pc = s.pc + 2 ∧ Frame { regs := [x] } s t ∧
      ∀ k, (reg t x).getLsbD k = ((reg s x).getLsbD k || (reg s y).getLsbD k)) ∧
    (∃ t, exec (.andVxVy x y) s = .next t ∧ t.pc = s.pc + 2 ∧ Frame { regs := [x] } s t ∧
      ∀ k, (reg t x).getLsbD k = ((reg s x).getLsbD k && (reg s y).getLsbD k)) ∧
    (∃ t, exec (.xorVxVy x y) s = .next t ∧ t.pc = s.pc + 2 ∧ Frame { regs := [x] } s t ∧
      ∀ k, (reg t x).getLsbD k = ((reg s x).getLsbD k ^^ (reg s y).getLsbD k))

/-- 41_load_and_alu.md R124: VF is the carry, also when x = 15, where the sum is lost (the order of the two writes is
the spec's decision D10). -/
def Obligations.AddSetsCarry : Prop :=
  ∀ (s : State) (x y : Reg),
    ∃ t, exec (.addVxVy x y) s = .next t ∧
      reg t 15 = (if 255 < (reg s x).toNat + (reg s y).toNat then 1 else 0) ∧
      (x ≠ 15 → (reg t x).toNat = ((reg s x).toNat + (reg s y).toNat) % 256) ∧
      t.pc = s.pc + 2 ∧ Frame { regs := [x, 15] } s t

/-- 41_load_and_alu.md R128, R129: the difference modulo 256 and NOT borrow; with x = 15 the difference remains and
the flag is lost (the order of the two writes is the spec's decision D10). -/
def Obligations.SubtractionsSetNotBorrow : Prop :=
  ∀ (s : State) (x y : Reg),
    (∃ t, exec (.subVxVy x y) s = .next t ∧
      (reg t x).toNat = ((reg s x).toNat + 256 - (reg s y).toNat) % 256 ∧
      (x ≠ 15 → reg t 15 = (if (reg s y).toNat ≤ (reg s x).toNat then 1 else 0)) ∧
      t.pc = s.pc + 2 ∧ Frame { regs := [x, 15] } s t) ∧
    (∃ t, exec (.subnVxVy x y) s = .next t ∧
      (reg t x).toNat = ((reg s y).toNat + 256 - (reg s x).toNat) % 256 ∧
      (x ≠ 15 → reg t 15 = (if (reg s x).toNat ≤ (reg s y).toNat then 1 else 0)) ∧
      t.pc = s.pc + 2 ∧ Frame { regs := [x, 15] } s t)

/-- 41_load_and_alu.md R130, R131: a logical shift by one of V[x] and the bit shifted out; with x = 15 the result
remains and the flag is lost (the order of the two writes is the spec's decision D10). -/
def Obligations.ShiftsSetTheBitShiftedOut : Prop :=
  ∀ (s : State) (x : Reg),
    (∃ t, exec (.shrVx x) s = .next t ∧ (reg t x).toNat = (reg s x).toNat / 2 ∧
      (x ≠ 15 → (reg t 15).toNat = (reg s x).toNat % 2) ∧
      t.pc = s.pc + 2 ∧ Frame { regs := [x, 15] } s t) ∧
    (∃ t, exec (.shlVx x) s = .next t ∧ (reg t x).toNat = (reg s x).toNat * 2 % 256 ∧
      (x ≠ 15 → (reg t 15).toNat = (reg s x).toNat / 128) ∧
      t.pc = s.pc + 2 ∧ Frame { regs := [x, 15] } s t)

/-- 41_load_and_alu.md R132: one byte is drawn, whatever it is and whatever `kk` is, and masked: the next byte of the
given sequence, or a byte under no law where none is given (the model's form of the draw, log 4). -/
def Obligations.RndMasksOneDraw : Prop :=
  ∀ (s : State) (x : Reg) (kk : Byte),
    (∀ r rest, s.env.randomBytes = r :: rest →
      ∃ t, exec (.rndVxByte x kk) s = .next t ∧ reg t x = r &&& kk ∧ t.env.randomBytes = rest ∧
        t.env.draws = s.env.draws + 1 ∧ t.pc = s.pc + 2 ∧ Frame { regs := [x], random := true } s t) ∧
    (s.env.randomBytes = [] →
      ∃ t, exec (.rndVxByte x kk) s = .next t ∧ reg t x = Config.randomByte s.env.draws &&& kk ∧
        t.env.randomBytes = [] ∧ t.env.draws = s.env.draws + 1 ∧ t.pc = s.pc + 2 ∧
        Frame { regs := [x], random := true } s t)

/-! ### Index register and memory -/

/-- 42_index_and_memory.md R141. -/
def Obligations.LdISetsIndex : Prop :=
  ∀ (s : State) (nnn : Addr12),
    ∃ t, exec (.ldIAddr nnn) s = .next t ∧ t.i.toNat = nnn.toNat ∧ t.pc = s.pc + 2 ∧ Frame { index := true } s t

/-- 42_index_and_memory.md R142: the sum in 16 bits, VF not written (the wrap at 2^16 is the spec's decision D7). -/
def Obligations.AddIKeepsSixteenBits : Prop :=
  ∀ (s : State) (x : Reg),
    ∃ t, exec (.addIVx x) s = .next t ∧ t.i.toNat = (s.i.toNat + (reg s x).toNat) % 65536 ∧
      t.pc = s.pc + 2 ∧ Frame { index := true } s t

/-- 42_index_and_memory.md R143: five times the low nibble; the high nibble is ignored (the stride is the spec's decision
D3). -/
def Obligations.LdFPointsAtTheGlyph : Prop :=
  ∀ (s : State) (x : Reg),
    ∃ t, exec (.ldFVx x) s = .next t ∧ t.i.toNat = 5 * ((reg s x).toNat % 16) ∧
      t.pc = s.pc + 2 ∧ Frame { index := true } s t

/-- 42_index_and_memory.md R144: hundreds, tens and ones at I, I + 1, I + 2, or nothing written and a fault (the order
of the digits is D18, the font's write protection D16, the whole-range check D17). -/
def Obligations.LdBStoresDecimalDigits : Prop :=
  ∀ (s : State) (x : Reg),
    (80 ≤ dataAddress s → dataAddress s + 3 ≤ 4096 →
      ∃ t, exec (.ldBVx x) s = .next t ∧
        (memByte t.mem (dataAddress s)).toNat = (reg s x).toNat / 100 ∧
        (memByte t.mem (dataAddress s + 1)).toNat = (reg s x).toNat / 10 % 10 ∧
        (memByte t.mem (dataAddress s + 2)).toNat = (reg s x).toNat % 10 ∧
        t.pc = s.pc + 2 ∧ Frame { cells := runOfCells (dataAddress s) 3 } s t) ∧
    (dataAddress s < 80 ∨ 4096 < dataAddress s + 3 →
      exec (.ldBVx x) s = .fault (.operandRangeError s.pc (fetch s).toOption))

/-- 42_index_and_memory.md R145: V[0] to V[x] at I and up, I unchanged, or nothing written and a fault (I unchanged is
D19, the font's write protection D16, the whole-range check D17). -/
def Obligations.BlockStoreWritesRegisters : Prop :=
  ∀ (s : State) (x : Reg),
    (80 ≤ dataAddress s → dataAddress s + x.val + 1 ≤ 4096 →
      ∃ t, exec (.ldMemVx x) s = .next t ∧
        (∀ k : Reg, k.val ≤ x.val → memByte t.mem (dataAddress s + k.val) = reg s k) ∧
        t.pc = s.pc + 2 ∧ Frame { cells := runOfCells (dataAddress s) (x.val + 1) } s t) ∧
    (dataAddress s < 80 ∨ 4096 < dataAddress s + x.val + 1 →
      exec (.ldMemVx x) s = .fault (.operandRangeError s.pc (fetch s).toOption))

/-- 42_index_and_memory.md R146: V[0] to V[x] from I and up, I and the registers above unchanged, or no register
written and a fault (I unchanged is D19, the whole-range check D17). -/
def Obligations.BlockLoadReadsRegisters : Prop :=
  ∀ (s : State) (x : Reg),
    (dataAddress s + x.val + 1 ≤ 4096 →
      ∃ t, exec (.ldVxMem x) s = .next t ∧
        (∀ k : Reg, k.val ≤ x.val → reg t k = memByte s.mem (dataAddress s + k.val)) ∧
        t.pc = s.pc + 2 ∧ Frame { regs := blockRegs x } s t) ∧
    (4096 < dataAddress s + x.val + 1 →
      exec (.ldVxMem x) s = .fault (.operandRangeError s.pc (fetch s).toOption))

/-- A block store followed, at any pc, by a block load of the same registers from the same place gives the registers
back (42_index_and_memory.md R145, R146; D16, D17 and D19). -/
def Obligations.BlockLoadUndoesBlockStore : Prop :=
  ∀ (s t : State) (x : Reg) (v : Vector Byte Config.nreg), exec (.ldMemVx x) s = .next t →
    ∃ u, exec (.ldVxMem x) { t with v := v } = .next u ∧ ∀ k : Reg, k.val ≤ x.val → reg u k = reg s k

/-- 20_memory.md R53: the range is checked as natural numbers, and the bytes come lowest address first. -/
def Obligations.MemReadChecksThenReads : Prop :=
  ∀ (s : State) (addr n : Nat), 1 ≤ n → n ≤ 16 →
    (Config.memSize < addr + n → memRead s addr n = .error (.operandRangeError s.pc (fetch s).toOption)) ∧
    (addr + n ≤ Config.memSize → ∃ bs, memRead s addr n = .ok bs ∧ bs.length = n ∧
      ∀ j (h : j < bs.length), bs[j] = memByte s.mem (addr + j))

/-- 20_memory.md R65: the step after a block store fetches the stored bytes where they lie at its pc: V[0] is the high
byte of the word and V[1] the low byte (which addresses may be stored to is D16 and D17). -/
def Obligations.StoreIsSeenByTheNextFetch : Prop :=
  ∀ (s t : State) (x : Reg), exec (.ldMemVx x) s = .next t → 1 ≤ x.val → t.pc = s.i →
    s.i.toNat % 2 = 0 → fetch t = .ok (wordOfBytes (reg s 0) (reg s 1))

/-! ### Display -/

/-- 43_display.md R151. -/
def Obligations.ClsClearsEveryByte : Prop :=
  ∀ s : State, ∃ t, exec .cls s = .next t ∧ (∀ k (h : k < Config.fbBytes), t.fb[k] = 0) ∧
    t.pc = s.pc + 2 ∧ Frame { fb := true } s t

/-- 43_display.md R152 to R156: the whole loop of DRW is one exclusive or of the framebuffer with the wrapped sprite,
and VF is 1 exactly when a set pixel lies under a sprite bit, else 0 (VF = 0 without a collision is D11, the sprite's
bit order D13, HEIGHT D4). -/
def Obligations.DrwXorsTheWrappedSprite : Prop :=
  ∀ (s : State) (x y : Reg) (n : Nibble), n ≠ 0 → dataAddress s + n.toNat ≤ 4096 →
    ∃ t, exec (.drwVxVyN x y n) s = .next t ∧
      (∀ px py, pixel t.fb px py = (pixel s.fb px py ^^ spriteBit s x y n px py)) ∧
      (SpriteCollides s x y n → reg t 15 = 1) ∧ (¬ SpriteCollides s x y n → reg t 15 = 0) ∧
      t.pc = s.pc + 2 ∧ Frame { regs := [15], fb := true } s t

/-- 43_display.md R158 (an inference the spec marks as its own), for every sprite and place: drawing a sprite twice
restores every pixel. The coordinates are in registers other than VF, which the first draw writes. -/
def Obligations.DrawingTwiceRestoresThePixels : Prop :=
  ∀ (s t u : State) (x y : Reg) (n : Nibble), x ≠ 15 → y ≠ 15 →
    exec (.drwVxVyN x y n) s = .next t → exec (.drwVxVyN x y n) t = .next u →
    ∀ px py, pixel u.fb px py = pixel s.fb px py

/-! ### Timers and keys -/

/-- 44_timers_and_keys.md R160, R161, R162. -/
def Obligations.TimerMovesCopy : Prop :=
  ∀ (s : State) (x : Reg),
    (∃ t, exec (.ldVxDT x) s = .next t ∧ reg t x = s.dt ∧ t.pc = s.pc + 2 ∧ Frame { regs := [x] } s t) ∧
    (∃ t, exec (.ldDTVx x) s = .next t ∧ t.dt = reg s x ∧ t.pc = s.pc + 2 ∧ Frame { dt := true } s t) ∧
    (∃ t, exec (.ldSTVx x) s = .next t ∧ t.st = reg s x ∧ t.pc = s.pc + 2 ∧ Frame { st := true } s t)

/-- 44_timers_and_keys.md R163, R164: the whole value of V[x] is looked up in HELD; 16 to 255 are no keys (D20). -/
def Obligations.KeySkipsTestTheHeldSet : Prop :=
  ∀ (s : State) (x : Reg),
    (∃ t, exec (.skpVx x) s = .next t ∧ Frame {} s t ∧
      (∀ k : Key, (reg s x).toNat = k.val → t.pc = if s.held[k.val] then s.pc + 4 else s.pc + 2) ∧
      (16 ≤ (reg s x).toNat → t.pc = s.pc + 2)) ∧
    (∃ t, exec (.sknpVx x) s = .next t ∧ Frame {} s t ∧
      (∀ k : Key, (reg s x).toNat = k.val → t.pc = if s.held[k.val] then s.pc + 2 else s.pc + 4) ∧
      (16 ≤ (reg s x).toNat → t.pc = s.pc + 4))

/-- 44_timers_and_keys.md R165: with keys pending the most recently latched one is consumed and the others stay (the
list and its order are D21). -/
def Obligations.KeyWaitConsumesTheLatestKey : Prop :=
  ∀ (s : State) (x : Reg) (older : List Key) (k : Key), s.edge = older ++ [k] →
    ∃ t, exec (.ldVxK x) s = .next t ∧ (reg t x).toNat = k.val ∧ t.edge = older ∧ t.pc = s.pc + 2 ∧
      Frame { regs := [x], edge := true } s t

/-- 44_timers_and_keys.md R165 and 60_exceptions.md R209: with no key pending a step of the key wait is a Retry and
changes nothing; a Retry is answered in no other case (that EDGE is a list is D21; that a step of the host's
interface answers `next` with the state unchanged is the model's, log 5). -/
def Obligations.KeyWaitRetriesUntilAKeyIsPending : Prop :=
  (∀ (s : State) (w : Word) (x : Reg), s.phase = .loaded → fetch s = .ok w → decode w = .ok (.ldVxK x) →
    s.edge = [] → fire .step s = (.retry, s)) ∧
  (∀ s t : State, fire .step s = (.retry, t) →
    t = s ∧ s.phase = .loaded ∧ s.edge = [] ∧ ∃ w x, fetch s = .ok w ∧ decode w = .ok (.ldVxK x))

/-! ### What an instruction can change and read -/

/-- Every completed instruction changes nothing outside its footprint (10_state.md R22, R23, R28, R32, R33, R35, R37, R38,
R39, R40; 20_memory.md R51), from any state. Where a footprint rests on a decision of the spec (log 1): I is outside that
of the block transfers (D19), VF is in that of the five flag-writing arithmetic instructions and of every DRW (D10, D11),
and only a store that is whole and clear of the font completes (D16, D17). -/
def Obligations.EveryInstructionKeepsItsFrame : Prop :=
  ∀ (i : Instr) (s t : State), exec i s = .next t → Frame (footprint i s) s t

/-- 10_state.md R28: no instruction but CALL and RET reads or writes STACK or SP: with another stack it does the same,
and leaves that stack. The fetch and the memory primitives, at any address, neither read a stack entry nor write one. -/
def Obligations.StackIsReachedByCallAndRetAlone : Prop :=
  (∀ (i : Instr) (s : State) (stack : Vector Word Config.stackDepth) (sp : Fin (Config.stackDepth + 1)),
    i ≠ .ret → (∀ nnn, i ≠ .callAddr nnn) →
    (∀ t, exec i s = .next t → t.stack = s.stack ∧ t.sp = s.sp ∧
      exec i { s with stack := stack, sp := sp } = .next { t with stack := stack, sp := sp }) ∧
    (∀ f, exec i s = .fault f → exec i { s with stack := stack, sp := sp } = .fault f)) ∧
  (∀ (s : State) (addr n : Nat) (bytes : List Byte) (stack : Vector Word Config.stackDepth)
    (sp : Fin (Config.stackDepth + 1)),
    fetch { s with stack := stack, sp := sp } = fetch s ∧
    memRead { s with stack := stack, sp := sp } addr n = memRead s addr n ∧
    ∀ t, memWrite s addr bytes = .ok t → t.stack = s.stack ∧ t.sp = s.sp)

/-- 10_state.md R35: the program reaches FB through CLS and DRW alone, and reads it through DRW's collision flag alone:
with another framebuffer an instruction does the same but for FB, and for VF where it is DRW. No address of MEM reads or
writes FB, by the fetch or by the memory primitives; the host reads the whole of it. -/
def Obligations.FramebufferIsReadThroughCollisionAlone : Prop :=
  (∀ (i : Instr) (s : State) (fb : Framebuffer),
    (∀ t, exec i s = .next t →
      (i ≠ .cls → (∀ x y n, i ≠ .drwVxVyN x y n) → t.fb = s.fb) ∧
      ∃ t', exec i { s with fb := fb } = .next t' ∧ { t' with fb := t.fb, v := t.v } = t ∧
        (∀ r, (r = 15 → ∀ x y n, i ≠ .drwVxVyN x y n) → reg t' r = reg t r)) ∧
    (∀ f, exec i s = .fault f → exec i { s with fb := fb } = .fault f)) ∧
  (∀ (s : State) (addr n : Nat) (bytes : List Byte) (fb : Framebuffer),
    fetch { s with fb := fb } = fetch s ∧
    memRead { s with fb := fb } addr n = memRead s addr n ∧
    (∀ t, memWrite s addr bytes = .ok t → t.fb = s.fb) ∧
    fire .readFramebuffer s = (.framebuffer s.fb, s))

/-- 10_state.md R33: no instruction reads ST: with another ST an instruction does the same, and leaves that ST unless
it is LD ST,Vx; the event `tick` decrements it as DT; the host can read it. -/
def Obligations.NoInstructionReadsTheSoundTimer : Prop :=
  (∀ (i : Instr) (s : State) (b : Byte),
    (∀ t, exec i s = .next t →
      (∃ x, i = .ldSTVx x ∧ t.st = reg s x ∧ exec i { s with st := b } = .next t) ∨
      ((∀ x, i ≠ .ldSTVx x) ∧ t.st = s.st ∧ exec i { s with st := b } = .next { t with st := b })) ∧
    (∀ f, exec i s = .fault f → exec i { s with st := b } = .fault f)) ∧
  (∀ s : State, (tick s).st.toNat = s.st.toNat - 1 ∧ (tick s).dt.toNat = s.dt.toNat - 1 ∧
    (s.phase ≠ .faulted → fire .tick s = (.done, tick s)) ∧
    fire .readTimers s = (.timers s.dt s.st, s))

/-- 10_state.md R37: no instruction writes HELD, and only SKP and SKNP read it: with another held set any other
instruction does the same. Of the events only a poll writes it (and the reset, which makes a machine anew). -/
def Obligations.HeldSetIsReadByKeySkipsAlone : Prop :=
  (∀ (e : Event) (s t : State), hostMove e s = .next t → e ≠ .construct → (∀ held pressed, e ≠ .pollInput held pressed) →
    t.held = s.held) ∧
  ∀ (i : Instr) (s : State) (held : KeySet),
    (∀ t, exec i s = .next t → t.held = s.held ∧
      ((∀ x, i ≠ .skpVx x) → (∀ x, i ≠ .sknpVx x) →
        exec i { s with held := held } = .next { t with held := held })) ∧
    (∀ f, exec i s = .fault f → exec i { s with held := held } = .fault f) ∧
    (∀ pressed, s.phase ≠ .faulted → ∃ t, hostMove (.pollInput held pressed) s = .next t ∧ t.held = held)

/-! ### Invariants -/

/-- Every step keeps memory in its canonical form: no cell outside the address space, none listed twice, none that holds
its reset contents (the model's form of MEM, log 9; 20_memory.md R50, R54; D16, D17). -/
def Obligations.StepKeepsMemoryForm : Prop :=
  ∀ s t : State, memWf s.mem = true → step s = .next t → memWf t.mem = true

/-- Every step keeps the font: no instruction and no host event can change it (20_memory.md R52, R54, R66; that a store
into it faults is D16). -/
def Obligations.StepKeepsTheFont : Prop :=
  ∀ s t : State, FontIntact s → step s = .next t → FontIntact t

/-- Every step keeps EDGE free of repeats (10_state.md R38, 49_host_interface.md R180; D21). -/
def Obligations.StepKeepsPendingKeysDistinct : Prop :=
  ∀ s t : State, EdgeDistinct s → step s = .next t → EdgeDistinct t

/-- Every step keeps pc within the values R26 of 10_state.md lists, and every valid return address even and inside the
address space (10_state.md R26 and 20_memory.md R57, both inferences the spec marks as its own; D6, D8). -/
def Obligations.StepKeepsPcAndReturnAddresses : Prop :=
  ∀ s t : State, PcReachable s → ReturnsAligned s → step s = .next t → PcReachable t ∧ ReturnsAligned t

/-- The reset state meets every invariant. -/
def Obligations.ResetMeetsTheInvariants : Prop :=
  memWf State.reset.mem = true ∧ FontIntact State.reset ∧ EdgeDistinct State.reset ∧ PcReachable State.reset ∧
    ReturnsAligned State.reset
end

