-- ==== Sys2Proof/Laws/Decode.lean ====
section
/-! SUPPORT. The rows of the opcode map differ in a bit that both compare, and so a row that a word matches is the one
it decodes by. -/

namespace Sys2Proof

/-- Any two rows differ in a bit that both their masks hold (30_encoding.md R74: "the rows are pairwise disjoint"). -/
theorem opcodeMap_masks_differ :
    opcodeMap.Pairwise fun r q => (r.pattern ^^^ q.pattern) &&& r.mask &&& q.mask ≠ 0#16 := by
  decide

/-- Two rows that differ in a bit both compare match no word together. -/
theorem rows_exclusive {r q : OpcodeRow} (hd : (r.pattern ^^^ q.pattern) &&& r.mask &&& q.mask ≠ 0#16) {w : Word}
    (hr : rowAccepts w r = true) : rowAccepts w q = false := by
  by_contra hq
  rw [Bool.not_eq_false] at hq
  simp only [rowAccepts, Bool.and_eq_true, beq_iff_eq] at hr hq
  apply hd
  rw [← hr.1, ← hq.1]
  ext i
  simp only [BitVec.getElem_and, BitVec.getElem_xor, BitVec.getElem_zero]
  cases w[i] <;> cases r.mask[i] <;> cases q.mask[i] <;> rfl

/-- A word decodes by any row of the map that it matches. -/
theorem decode_of_row {r : OpcodeRow} (hr : r ∈ opcodeMap) {w : Word} (h : rowAccepts w r = true) :
    decode w = .ok (r.build w) := by
  have find : opcodeMap.find? (rowAccepts w) = some r := by
    have hp := opcodeMap_masks_differ
    generalize opcodeMap = rows at hr hp
    induction rows with
    | nil => simp at hr
    | cons q rest ih =>
      have hp := List.pairwise_cons.mp hp
      rcases List.mem_cons.mp hr with rfl | hr
      · simp [h]
      · have : rowAccepts w q = false := by
          by_contra hq
          rw [Bool.not_eq_false] at hq
          have := rows_exclusive (hp.1 r hr) hq
          simp [h] at this
        rw [List.find?_cons, this]
        exact ih hr hp.2
  rw [decode, find]

/-- What a word that decodes was read from: a row of the map that it matches. -/
theorem decode_inv {w : Word} {i : Instr} (h : decode w = .ok i) :
    ∃ r ∈ opcodeMap, rowAccepts w r = true ∧ i = r.build w := by
  unfold decode at h
  split at h
  · next r hr =>
    cases h
    exact ⟨r, List.mem_of_find?_eq_some hr, List.find?_some hr, rfl⟩
  · cases h

/-- A word that matches no row is rejected under the name of its line. -/
theorem decode_of_no_row {w : Word} (h : ∀ r ∈ opcodeMap, rowAccepts w r = false) :
    decode w = .error (rejectName w) := by
  have : opcodeMap.find? (rowAccepts w) = none := List.find?_eq_none.mpr (by simpa using h)
  rw [decode, this]

/-- Two bytes decode as their word. -/
theorem decodeBytes_two (b0 b1 : Byte) (rest : List Byte) {i : Instr} (h : decode (wordOfBytes b0 b1) = .ok i) :
    decodeBytes (b0 :: b1 :: rest) = .ok (i, rest) := by
  rw [decodeBytes, h]

end Sys2Proof
end

