-- ==== Sys2Proof/Laws/Display.lean ====
section
/-! SUPPORT. The laws of the framebuffer: a pixel read after a pixel written, and what one sprite bit does. -/

namespace Sys2Proof.Machine

theorem getLsbD_setBit (byte : Byte) (k j : Nat) (b : Bool) (hk : k < 8) (hj : j < 8) :
    (setBit byte k b).getLsbD j = if j = k then b else byte.getLsbD j := by
  unfold setBit
  rw [show k = (⟨k, hk⟩ : Fin 8).val from rfl, show j = (⟨j, hj⟩ : Fin 8).val from rfl]
  generalize (⟨k, hk⟩ : Fin 8) = k'
  generalize (⟨j, hj⟩ : Fin 8) = j'
  fin_cases k' <;> fin_cases j' <;> cases b <;> simp

/-- Two pixels in the same byte and at the same bit are one pixel. -/
theorem pixel_place_inj {px qx : Fin Config.width} {py qy : Fin Config.height}
    (hb : pixelByte px py = pixelByte qx qy) (ht : 7 - px.val % 8 = 7 - qx.val % 8) : px = qx ∧ py = qy := by
  have hb := congrArg Fin.val hb
  have := px.isLt
  have := qx.isLt
  simp only [pixelByte] at hb
  simp only [Config.width] at *
  exact ⟨Fin.ext (by omega), Fin.ext (by omega)⟩

/-- `Pixel` after `SetPixel`: the pixel written, and every other pixel as before. -/
theorem pixel_setPixel (fb : Framebuffer) (px qx : Fin Config.width) (py qy : Fin Config.height) (b : Bool) :
    pixel (setPixel fb px py b) qx qy = if qx = px ∧ qy = py then b else pixel fb qx qy := by
  unfold pixel setPixel
  rw [Vector.getElem_set]
  by_cases hb : pixelByte px py = pixelByte qx qy
  · have hb' : (pixelByte px py).val = (pixelByte qx qy).val := congrArg Fin.val hb
    rw [if_pos hb', getLsbD_setBit _ _ _ _ (by omega) (by omega)]
    by_cases ht : 7 - qx.val % 8 = 7 - px.val % 8
    · obtain ⟨rfl, rfl⟩ := pixel_place_inj hb ht.symm
      simp
    · have : ¬ (qx = px ∧ qy = py) := by rintro ⟨rfl, rfl⟩; exact ht rfl
      rw [if_neg ht, if_neg this]
      simp [hb']
  · have hb' : (pixelByte px py).val ≠ (pixelByte qx qy).val := fun e => hb (Fin.ext e)
    have : ¬ (qx = px ∧ qy = py) := by rintro ⟨rfl, rfl⟩; exact hb rfl
    rw [if_neg hb', if_neg this]

/-- One sprite bit: its pixel is flipped when the bit is 1, every other pixel stays. -/
theorem pixel_drawBit (x0 : Nat) (py qy : Fin Config.height) (row : Byte) (d : Canvas) (c : Nat)
    (qx : Fin Config.width) :
    pixel (drawBit x0 py row d c).fb qx qy =
      (pixel d.fb qx qy ^^ (decide (qx = wrapX (x0 + c) ∧ qy = py) && row.getLsbD (7 - c))) := by
  unfold drawBit
  split
  · next h =>
    rw [pixel_setPixel]
    split
    · next e => simp [e, h]
    · next e => simp [e]
  · next h => simp [h]

/-- One sprite bit: a collision is a pixel that was set under a bit of 1. -/
theorem coll_drawBit (x0 : Nat) (py : Fin Config.height) (row : Byte) (d : Canvas) (c : Nat) :
    (drawBit x0 py row d c).coll = ((row.getLsbD (7 - c) && pixel d.fb (wrapX (x0 + c)) py) || d.coll) := by
  unfold drawBit
  split
  · next h => simp [h]
  · next h => simp [h]

end Sys2Proof.Machine
end

