-- ==== Sys2Proof/Laws/Memory.lean ====
section
/-! SUPPORT. The laws of memory: a read after a write, and that every memory operation keeps the canonical form. -/

namespace Sys2Proof.Machine

/-! ### Reading after writing -/

theorem memByte_memErase (m : Memory) (a k : Nat) :
    memByte (memErase m a) k = if k = a then unlistedByte k else memByte m k := by
  induction m with
  | nil => simp [memErase, memByte]
  | cons c rest ih =>
    unfold memErase at ih ⊢
    by_cases hc : c.1 = a
    · rw [List.filter_cons_of_neg (by simp [hc]), ih]
      by_cases hk : k = a
      · simp [hk]
      · have : c.1 ≠ k := fun e => hk (e ▸ hc)
        simp [hk, memByte, this]
    · rw [List.filter_cons_of_pos (by simp [hc])]
      by_cases hk : c.1 = k
      · have : k ≠ a := fun e => hc (hk.trans e)
        simp [memByte, hk, this]
      · simp [memByte, hk, ih]

theorem memByte_memInsert (m : Memory) (a : Nat) (b : Byte) (k : Nat) (h : ∀ c ∈ m, c.1 ≠ a) :
    memByte (memInsert m a b) k = if k = a then b else memByte m k := by
  induction m with
  | nil => simp [memInsert, memByte, eq_comm]
  | cons c rest ih =>
    have hc : c.1 ≠ a := h c (by simp)
    have ih := ih fun d hd => h d (by simp [hd])
    unfold memInsert
    by_cases hlt : a < c.1
    · rw [if_pos hlt]
      by_cases hk : k = a
      · simp [memByte, hk]
      · simp [memByte, hk, Ne.symm hk]
    · rw [if_neg hlt]
      by_cases hk : c.1 = k
      · have : k ≠ a := fun e => hc (hk.trans e)
        simp [memByte, hk, this]
      · simp [memByte, hk, ih]

theorem memErase_absent (m : Memory) (a : Nat) : ∀ c ∈ memErase m a, c.1 ≠ a := by
  intro c hc
  simpa [memErase] using (List.mem_filter.mp hc).2

/-- A read after a write of one byte: the byte written at that address, what was there at every other. -/
theorem memByte_memPut (m : Memory) (a : Nat) (b : Byte) (k : Nat) :
    memByte (memPut m a b) k = if k = a then b else memByte m k := by
  unfold memPut
  split
  · next hb =>
    rw [memByte_memErase]
    split
    · next hk => rw [hb, hk]
    · rfl
  · rw [memByte_memInsert _ _ _ _ (memErase_absent m a), memByte_memErase]
    split <;> rfl

/-- A read after a write of a run of bytes, outside the run. -/
theorem memByte_memPutBytes_outside (bs : List Byte) :
    ∀ (m : Memory) (a k : Nat), k < a ∨ a + bs.length ≤ k → memByte (memPutBytes m a bs) k = memByte m k := by
  induction bs with
  | nil => intros; rfl
  | cons b bs ih =>
    intro m a k h
    simp only [List.length_cons] at h
    have hk : k ≠ a := by omega
    rw [memPutBytes, ih _ _ _ (by omega), memByte_memPut, if_neg hk]

/-- A read after a write of a run of bytes, inside the run. -/
theorem memByte_memPutBytes_inside (bs : List Byte) :
    ∀ (m : Memory) (a j : Nat) (h : j < bs.length), memByte (memPutBytes m a bs) (a + j) = bs[j] := by
  induction bs with
  | nil => intro m a j h; simp at h
  | cons b bs ih =>
    intro m a j h
    rw [memPutBytes]
    cases j with
    | zero => rw [memByte_memPutBytes_outside _ _ _ _ (by omega), memByte_memPut]; simp
    | succ j =>
      have hj : j < bs.length := by simpa using h
      have := ih (memPut m a b) (a + 1) j hj
      rw [show a + 1 + j = a + (j + 1) by omega] at this
      simpa using this

@[simp] theorem memBytes_length (m : Memory) (n : Nat) : ∀ a, (memBytes m a n).length = n := by
  induction n with
  | zero => intro a; rfl
  | succ n ih => intro a; simp [memBytes, ih]

/-- The bytes of a run, one by one. -/
theorem memBytes_getElem (m : Memory) (n : Nat) :
    ∀ (a j : Nat) (h : j < (memBytes m a n).length), (memBytes m a n)[j] = memByte m (a + j) := by
  induction n with
  | zero => intro a j h; simp at h
  | succ n ih =>
    intro a j h
    cases j with
    | zero => simp [memBytes]
    | succ j =>
      simp only [memBytes, List.getElem_cons_succ]
      rw [ih]
      congr 1
      omega

/-! ### The canonical form -/

theorem memRising_iff (m : Memory) : memRising m = true ↔ m.Pairwise fun c d => c.1 < d.1 := by
  induction m with
  | nil => simp [memRising]
  | cons c rest ih =>
    cases rest with
    | nil => simp [memRising]
    | cons d rest =>
      rw [memRising, Bool.and_eq_true, decide_eq_true_eq, ih]
      constructor
      · rintro ⟨hcd, hp⟩
        refine List.pairwise_cons.mpr ⟨?_, hp⟩
        intro e he
        rcases List.mem_cons.mp he with rfl | he
        · exact hcd
        · exact Nat.lt_trans hcd ((List.pairwise_cons.mp hp).1 e he)
      · intro hp
        have h := List.pairwise_cons.mp hp
        exact ⟨h.1 d (by simp), h.2⟩

/-- The canonical form, said of the cells. -/
theorem memWf_iff (m : Memory) :
    memWf m = true ↔
      (m.Pairwise fun c d => c.1 < d.1) ∧ ∀ c ∈ m, c.1 < Config.memSize ∧ c.2 ≠ unlistedByte c.1 := by
  simp [memWf, memRising_iff, List.all_eq_true]

theorem memWf_memErase {m : Memory} (h : memWf m = true) (a : Nat) : memWf (memErase m a) = true := by
  rw [memWf_iff] at h ⊢
  exact ⟨h.1.filter _, fun c hc => h.2 c (List.mem_filter.mp hc).1⟩

theorem mem_memInsert (m : Memory) (a : Nat) (b : Byte) (c : Host.Cell) :
    c ∈ memInsert m a b ↔ c = (a, b) ∨ c ∈ m := by
  induction m with
  | nil => simp [memInsert]
  | cons d rest ih =>
    unfold memInsert
    split
    · simp
    · simp only [List.mem_cons, ih]; tauto

theorem memWf_memInsert {m : Memory} (h : memWf m = true) {a : Nat} {b : Byte} (ha : a < Config.memSize)
    (hb : b ≠ unlistedByte a) (absent : ∀ c ∈ m, c.1 ≠ a) : memWf (memInsert m a b) = true := by
  rw [memWf_iff] at h ⊢
  refine ⟨?_, fun c hc => ?_⟩
  · obtain ⟨hp, -⟩ := h
    induction m with
    | nil => simp [memInsert]
    | cons d rest ih =>
      have hd : d.1 ≠ a := absent d (by simp)
      have hp' := List.pairwise_cons.mp hp
      unfold memInsert
      split
      · next hlt =>
        refine List.pairwise_cons.mpr ⟨fun e he => ?_, hp⟩
        rcases List.mem_cons.mp he with rfl | he
        · exact hlt
        · exact Nat.lt_trans hlt (hp'.1 e he)
      · next hlt =>
        refine List.pairwise_cons.mpr ⟨fun e he => ?_, ih (fun c hc => absent c (by simp [hc])) hp'.2⟩
        rcases (mem_memInsert _ _ _ _).mp he with rfl | he
        · simp only; omega
        · exact hp'.1 e he
  · rcases (mem_memInsert _ _ _ _).mp hc with rfl | hc
    · exact ⟨ha, hb⟩
    · exact h.2 c hc

/-- A write of one byte inside the address space keeps the canonical form. -/
theorem memWf_memPut {m : Memory} (h : memWf m = true) {a : Nat} (ha : a < Config.memSize) (b : Byte) :
    memWf (memPut m a b) = true := by
  unfold memPut
  split
  · exact memWf_memErase h a
  · next hb => exact memWf_memInsert (memWf_memErase h a) ha hb (memErase_absent m a)

/-- A write of a run of bytes inside the address space keeps the canonical form. -/
theorem memWf_memPutBytes (bs : List Byte) :
    ∀ {m : Memory} {a : Nat}, memWf m = true → a + bs.length ≤ Config.memSize →
      memWf (memPutBytes m a bs) = true := by
  induction bs with
  | nil => intro m a h _; exact h
  | cons b bs ih =>
    intro m a h ha
    simp only [List.length_cons] at ha
    exact ih (memWf_memPut h (by omega) b) (by omega)

/-- The memory of the reset state has the canonical form. -/
theorem memWf_reset : memWf State.reset.mem = true := rfl

end Sys2Proof.Machine
end

