-- ==== Sys2Proof/Laws/State.lean ====
section
/-! SUPPORT. What each update of the state leaves alone, one lemma per field per update, and what it writes: later
proofs unfold no record update. -/

namespace Sys2Proof.Machine

@[simp] theorem setReg_i (s : State) (x : Reg) (b : Byte) : (setReg s x b).i = s.i := rfl
@[simp] theorem setReg_pc (s : State) (x : Reg) (b : Byte) : (setReg s x b).pc = s.pc := rfl
@[simp] theorem setReg_stack (s : State) (x : Reg) (b : Byte) : (setReg s x b).stack = s.stack := rfl
@[simp] theorem setReg_sp (s : State) (x : Reg) (b : Byte) : (setReg s x b).sp = s.sp := rfl
@[simp] theorem setReg_dt (s : State) (x : Reg) (b : Byte) : (setReg s x b).dt = s.dt := rfl
@[simp] theorem setReg_st (s : State) (x : Reg) (b : Byte) : (setReg s x b).st = s.st := rfl
@[simp] theorem setReg_mem (s : State) (x : Reg) (b : Byte) : (setReg s x b).mem = s.mem := rfl
@[simp] theorem setReg_fb (s : State) (x : Reg) (b : Byte) : (setReg s x b).fb = s.fb := rfl
@[simp] theorem setReg_held (s : State) (x : Reg) (b : Byte) : (setReg s x b).held = s.held := rfl
@[simp] theorem setReg_edge (s : State) (x : Reg) (b : Byte) : (setReg s x b).edge = s.edge := rfl
@[simp] theorem setReg_phase (s : State) (x : Reg) (b : Byte) : (setReg s x b).phase = s.phase := rfl
@[simp] theorem setReg_env (s : State) (x : Reg) (b : Byte) : (setReg s x b).env = s.env := rfl

@[simp] theorem setIndex_v (s : State) (w : Word) : (setIndex s w).v = s.v := rfl
@[simp] theorem setIndex_pc (s : State) (w : Word) : (setIndex s w).pc = s.pc := rfl
@[simp] theorem setIndex_stack (s : State) (w : Word) : (setIndex s w).stack = s.stack := rfl
@[simp] theorem setIndex_sp (s : State) (w : Word) : (setIndex s w).sp = s.sp := rfl
@[simp] theorem setIndex_dt (s : State) (w : Word) : (setIndex s w).dt = s.dt := rfl
@[simp] theorem setIndex_st (s : State) (w : Word) : (setIndex s w).st = s.st := rfl
@[simp] theorem setIndex_mem (s : State) (w : Word) : (setIndex s w).mem = s.mem := rfl
@[simp] theorem setIndex_fb (s : State) (w : Word) : (setIndex s w).fb = s.fb := rfl
@[simp] theorem setIndex_held (s : State) (w : Word) : (setIndex s w).held = s.held := rfl
@[simp] theorem setIndex_edge (s : State) (w : Word) : (setIndex s w).edge = s.edge := rfl
@[simp] theorem setIndex_phase (s : State) (w : Word) : (setIndex s w).phase = s.phase := rfl
@[simp] theorem setIndex_env (s : State) (w : Word) : (setIndex s w).env = s.env := rfl

@[simp] theorem setPc_v (s : State) (t : Word) : (setPc s t).v = s.v := rfl
@[simp] theorem setPc_i (s : State) (t : Word) : (setPc s t).i = s.i := rfl
@[simp] theorem setPc_stack (s : State) (t : Word) : (setPc s t).stack = s.stack := rfl
@[simp] theorem setPc_sp (s : State) (t : Word) : (setPc s t).sp = s.sp := rfl
@[simp] theorem setPc_dt (s : State) (t : Word) : (setPc s t).dt = s.dt := rfl
@[simp] theorem setPc_st (s : State) (t : Word) : (setPc s t).st = s.st := rfl
@[simp] theorem setPc_mem (s : State) (t : Word) : (setPc s t).mem = s.mem := rfl
@[simp] theorem setPc_fb (s : State) (t : Word) : (setPc s t).fb = s.fb := rfl
@[simp] theorem setPc_held (s : State) (t : Word) : (setPc s t).held = s.held := rfl
@[simp] theorem setPc_edge (s : State) (t : Word) : (setPc s t).edge = s.edge := rfl
@[simp] theorem setPc_phase (s : State) (t : Word) : (setPc s t).phase = s.phase := rfl
@[simp] theorem setPc_env (s : State) (t : Word) : (setPc s t).env = s.env := rfl

@[simp] theorem advance_v (s : State) : (advance s).v = s.v := rfl
@[simp] theorem advance_i (s : State) : (advance s).i = s.i := rfl
@[simp] theorem advance_stack (s : State) : (advance s).stack = s.stack := rfl
@[simp] theorem advance_sp (s : State) : (advance s).sp = s.sp := rfl
@[simp] theorem advance_dt (s : State) : (advance s).dt = s.dt := rfl
@[simp] theorem advance_st (s : State) : (advance s).st = s.st := rfl
@[simp] theorem advance_mem (s : State) : (advance s).mem = s.mem := rfl
@[simp] theorem advance_fb (s : State) : (advance s).fb = s.fb := rfl
@[simp] theorem advance_held (s : State) : (advance s).held = s.held := rfl
@[simp] theorem advance_edge (s : State) : (advance s).edge = s.edge := rfl
@[simp] theorem advance_phase (s : State) : (advance s).phase = s.phase := rfl
@[simp] theorem advance_env (s : State) : (advance s).env = s.env := rfl

@[simp] theorem consumeRandom_v (s : State) : (consumeRandom s).v = s.v := rfl
@[simp] theorem consumeRandom_i (s : State) : (consumeRandom s).i = s.i := rfl
@[simp] theorem consumeRandom_pc (s : State) : (consumeRandom s).pc = s.pc := rfl
@[simp] theorem consumeRandom_stack (s : State) : (consumeRandom s).stack = s.stack := rfl
@[simp] theorem consumeRandom_sp (s : State) : (consumeRandom s).sp = s.sp := rfl
@[simp] theorem consumeRandom_dt (s : State) : (consumeRandom s).dt = s.dt := rfl
@[simp] theorem consumeRandom_st (s : State) : (consumeRandom s).st = s.st := rfl
@[simp] theorem consumeRandom_mem (s : State) : (consumeRandom s).mem = s.mem := rfl
@[simp] theorem consumeRandom_fb (s : State) : (consumeRandom s).fb = s.fb := rfl
@[simp] theorem consumeRandom_held (s : State) : (consumeRandom s).held = s.held := rfl
@[simp] theorem consumeRandom_edge (s : State) : (consumeRandom s).edge = s.edge := rfl
@[simp] theorem consumeRandom_phase (s : State) : (consumeRandom s).phase = s.phase := rfl

@[simp] theorem enterFault_v (s : State) : (State.enterFault s).v = s.v := rfl
@[simp] theorem enterFault_i (s : State) : (State.enterFault s).i = s.i := rfl
@[simp] theorem enterFault_pc (s : State) : (State.enterFault s).pc = s.pc := rfl
@[simp] theorem enterFault_stack (s : State) : (State.enterFault s).stack = s.stack := rfl
@[simp] theorem enterFault_sp (s : State) : (State.enterFault s).sp = s.sp := rfl
@[simp] theorem enterFault_dt (s : State) : (State.enterFault s).dt = s.dt := rfl
@[simp] theorem enterFault_st (s : State) : (State.enterFault s).st = s.st := rfl
@[simp] theorem enterFault_mem (s : State) : (State.enterFault s).mem = s.mem := rfl
@[simp] theorem enterFault_fb (s : State) : (State.enterFault s).fb = s.fb := rfl
@[simp] theorem enterFault_held (s : State) : (State.enterFault s).held = s.held := rfl
@[simp] theorem enterFault_edge (s : State) : (State.enterFault s).edge = s.edge := rfl
@[simp] theorem enterFault_env (s : State) : (State.enterFault s).env = s.env := rfl

@[simp] theorem tick_v (s : State) : (tick s).v = s.v := rfl
@[simp] theorem tick_i (s : State) : (tick s).i = s.i := rfl
@[simp] theorem tick_pc (s : State) : (tick s).pc = s.pc := rfl
@[simp] theorem tick_stack (s : State) : (tick s).stack = s.stack := rfl
@[simp] theorem tick_sp (s : State) : (tick s).sp = s.sp := rfl
@[simp] theorem tick_mem (s : State) : (tick s).mem = s.mem := rfl
@[simp] theorem tick_fb (s : State) : (tick s).fb = s.fb := rfl
@[simp] theorem tick_held (s : State) : (tick s).held = s.held := rfl
@[simp] theorem tick_edge (s : State) : (tick s).edge = s.edge := rfl
@[simp] theorem tick_phase (s : State) : (tick s).phase = s.phase := rfl
@[simp] theorem tick_env (s : State) : (tick s).env = s.env := rfl

@[simp] theorem takeEvent_v (s : State) : (takeEvent s).v = s.v := rfl
@[simp] theorem takeEvent_i (s : State) : (takeEvent s).i = s.i := rfl
@[simp] theorem takeEvent_pc (s : State) : (takeEvent s).pc = s.pc := rfl
@[simp] theorem takeEvent_stack (s : State) : (takeEvent s).stack = s.stack := rfl
@[simp] theorem takeEvent_sp (s : State) : (takeEvent s).sp = s.sp := rfl
@[simp] theorem takeEvent_dt (s : State) : (takeEvent s).dt = s.dt := rfl
@[simp] theorem takeEvent_st (s : State) : (takeEvent s).st = s.st := rfl
@[simp] theorem takeEvent_mem (s : State) : (takeEvent s).mem = s.mem := rfl
@[simp] theorem takeEvent_fb (s : State) : (takeEvent s).fb = s.fb := rfl
@[simp] theorem takeEvent_held (s : State) : (takeEvent s).held = s.held := rfl
@[simp] theorem takeEvent_edge (s : State) : (takeEvent s).edge = s.edge := rfl
@[simp] theorem takeEvent_phase (s : State) : (takeEvent s).phase = s.phase := rfl

@[simp] theorem skipWhen_v (c : Bool) (s : State) : (skipWhen c s).v = s.v := rfl
@[simp] theorem skipWhen_i (c : Bool) (s : State) : (skipWhen c s).i = s.i := rfl
@[simp] theorem skipWhen_stack (c : Bool) (s : State) : (skipWhen c s).stack = s.stack := rfl
@[simp] theorem skipWhen_sp (c : Bool) (s : State) : (skipWhen c s).sp = s.sp := rfl
@[simp] theorem skipWhen_dt (c : Bool) (s : State) : (skipWhen c s).dt = s.dt := rfl
@[simp] theorem skipWhen_st (c : Bool) (s : State) : (skipWhen c s).st = s.st := rfl
@[simp] theorem skipWhen_mem (c : Bool) (s : State) : (skipWhen c s).mem = s.mem := rfl
@[simp] theorem skipWhen_fb (c : Bool) (s : State) : (skipWhen c s).fb = s.fb := rfl
@[simp] theorem skipWhen_held (c : Bool) (s : State) : (skipWhen c s).held = s.held := rfl
@[simp] theorem skipWhen_edge (c : Bool) (s : State) : (skipWhen c s).edge = s.edge := rfl
@[simp] theorem skipWhen_phase (c : Bool) (s : State) : (skipWhen c s).phase = s.phase := rfl
@[simp] theorem skipWhen_env (c : Bool) (s : State) : (skipWhen c s).env = s.env := rfl

@[simp] theorem pollInput_v (h : KeySet) (p : List Key) (s : State) : (pollInput h p s).v = s.v := rfl
@[simp] theorem pollInput_i (h : KeySet) (p : List Key) (s : State) : (pollInput h p s).i = s.i := rfl
@[simp] theorem pollInput_pc (h : KeySet) (p : List Key) (s : State) : (pollInput h p s).pc = s.pc := rfl
@[simp] theorem pollInput_stack (h : KeySet) (p : List Key) (s : State) : (pollInput h p s).stack = s.stack := rfl
@[simp] theorem pollInput_sp (h : KeySet) (p : List Key) (s : State) : (pollInput h p s).sp = s.sp := rfl
@[simp] theorem pollInput_dt (h : KeySet) (p : List Key) (s : State) : (pollInput h p s).dt = s.dt := rfl
@[simp] theorem pollInput_st (h : KeySet) (p : List Key) (s : State) : (pollInput h p s).st = s.st := rfl
@[simp] theorem pollInput_mem (h : KeySet) (p : List Key) (s : State) : (pollInput h p s).mem = s.mem := rfl
@[simp] theorem pollInput_fb (h : KeySet) (p : List Key) (s : State) : (pollInput h p s).fb = s.fb := rfl
@[simp] theorem pollInput_phase (h : KeySet) (p : List Key) (s : State) : (pollInput h p s).phase = s.phase := rfl
@[simp] theorem pollInput_env (h : KeySet) (p : List Key) (s : State) : (pollInput h p s).env = s.env := rfl

@[simp] theorem readyToFetch_v (s : State) : (readyToFetch s).v = s.v := rfl
@[simp] theorem readyToFetch_i (s : State) : (readyToFetch s).i = s.i := rfl
@[simp] theorem readyToFetch_stack (s : State) : (readyToFetch s).stack = s.stack := rfl
@[simp] theorem readyToFetch_sp (s : State) : (readyToFetch s).sp = s.sp := rfl
@[simp] theorem readyToFetch_dt (s : State) : (readyToFetch s).dt = s.dt := rfl
@[simp] theorem readyToFetch_st (s : State) : (readyToFetch s).st = s.st := rfl
@[simp] theorem readyToFetch_mem (s : State) : (readyToFetch s).mem = s.mem := rfl
@[simp] theorem readyToFetch_fb (s : State) : (readyToFetch s).fb = s.fb := rfl
@[simp] theorem readyToFetch_held (s : State) : (readyToFetch s).held = s.held := rfl
@[simp] theorem readyToFetch_edge (s : State) : (readyToFetch s).edge = s.edge := rfl

@[simp] theorem setIndex_i (s : State) (w : Word) : (setIndex s w).i = w := rfl
@[simp] theorem setPc_pc (s : State) (t : Word) : (setPc s t).pc = t := rfl
@[simp] theorem advance_pc (s : State) : (advance s).pc = s.pc + 2 := rfl
@[simp] theorem skipWhen_pc (c : Bool) (s : State) : (skipWhen c s).pc = if c then s.pc + 4 else s.pc + 2 := rfl
@[simp] theorem enterFault_phase (s : State) : s.enterFault.phase = .faulted := rfl
@[simp] theorem tick_dt (s : State) : (tick s).dt = decay s.dt := rfl
@[simp] theorem tick_st (s : State) : (tick s).st = decay s.st := rfl
@[simp] theorem pollInput_held (h : KeySet) (p : List Key) (s : State) : (pollInput h p s).held = h := rfl
@[simp] theorem pollInput_edge (h : KeySet) (p : List Key) (s : State) :
    (pollInput h p s).edge = p.foldl latch s.edge := rfl
@[simp] theorem readyToFetch_phase (s : State) : (readyToFetch s).phase = .loaded := rfl
@[simp] theorem consumeRandom_agenda (s : State) : (consumeRandom s).env.agenda = s.env.agenda := rfl
@[simp] theorem consumeRandom_draws (s : State) : (consumeRandom s).env.draws = s.env.draws + 1 := rfl
@[simp] theorem consumeRandom_randomBytes (s : State) :
    (consumeRandom s).env.randomBytes = s.env.randomBytes.tail := rfl
@[simp] theorem takeEvent_agenda (s : State) : (takeEvent s).env.agenda = s.env.agenda.tail := rfl
@[simp] theorem takeEvent_randomBytes (s : State) : (takeEvent s).env.randomBytes = s.env.randomBytes := rfl
@[simp] theorem takeEvent_draws (s : State) : (takeEvent s).env.draws = s.env.draws := rfl

/-- Reading a register after writing one. -/
theorem reg_setReg (s : State) (x y : Reg) (b : Byte) : reg (setReg s x b) y = if y = x then b else reg s y := by
  unfold reg setReg
  rw [Vector.getElem_set]
  by_cases h : x = y
  · simp [h]
  · have h' : x.val ≠ y.val := fun e => h (Fin.ext e)
    simp [h', Ne.symm h]

@[simp] theorem reg_setReg_same (s : State) (x : Reg) (b : Byte) : reg (setReg s x b) x = b := by
  simp [reg_setReg]

theorem reg_setReg_other (s : State) {x y : Reg} (b : Byte) (h : y ≠ x) : reg (setReg s x b) y = reg s y := by
  simp [reg_setReg, h]

/-- A register read depends on V alone. -/
theorem reg_eq_of_v_eq {s t : State} (h : t.v = s.v) (x : Reg) : reg t x = reg s x := by
  simp [reg, h]

@[simp] theorem reg_advance (s : State) (x : Reg) : reg (advance s) x = reg s x := rfl
@[simp] theorem reg_setPc (s : State) (t : Word) (x : Reg) : reg (setPc s t) x = reg s x := rfl
@[simp] theorem reg_setIndex (s : State) (w : Word) (x : Reg) : reg (setIndex s w) x = reg s x := rfl
@[simp] theorem reg_consumeRandom (s : State) (x : Reg) : reg (consumeRandom s) x = reg s x := rfl
@[simp] theorem reg_skipWhen (c : Bool) (s : State) (x : Reg) : reg (skipWhen c s) x = reg s x := rfl

end Sys2Proof.Machine
end

