-- ==== Sys2Proof/Laws/Ops.lean ====
section
/-! SUPPORT. One lemma per shared operation that says everything it can do: when it answers, and with what. -/

namespace Sys2Proof.Machine

/-! ### Fetch, memory access -/

/-- A fetch succeeds exactly at an even pc with both bytes in the address space, and gives the word there. -/
theorem fetch_ok_iff (s : State) (w : Word) :
    fetch s = .ok w ↔
      s.pc.toNat % 2 = 0 ∧ s.pc.toNat + 2 ≤ Config.memSize ∧ w = wordAt s.mem s.pc.toNat := by
  unfold fetch
  split
  · next h => simp [h]
  · split
    · next h₁ h₂ => simp; omega
    · next h₁ h₂ =>
      simp only [Except.ok.injEq]
      exact ⟨fun h => ⟨by omega, by omega, h.symm⟩, fun h => h.2.2.symm⟩

/-- A fetch that fails is an `OperandRangeError` without a word. -/
theorem fetch_error {s : State} {f : Fault} (h : fetch s = .error f) : f = .operandRangeError s.pc none := by
  unfold fetch at h
  split at h
  · cases h; rfl
  · split at h <;> cases h
    rfl

theorem memRead_ok_iff (s : State) (a n : Nat) (bs : List Byte) :
    memRead s a n = .ok bs ↔ a + n ≤ Config.memSize ∧ bs = memBytes s.mem a n := by
  unfold memRead
  split
  · next h => simp; omega
  · next h => simp only [Except.ok.injEq, eq_comm]; exact ⟨fun h' => ⟨by omega, h'⟩, fun h' => h'.2⟩

theorem memRead_error_iff (s : State) (a n : Nat) (f : Fault) :
    memRead s a n = .error f ↔ Config.memSize < a + n ∧ f = rangeFault s := by
  unfold memRead
  split
  · next h => simp only [Except.error.injEq, eq_comm]; exact ⟨fun h' => ⟨h, h'⟩, fun h' => h'.2⟩
  · next h => simp; omega

theorem memWrite_ok_iff (s t : State) (a : Nat) (bs : List Byte) :
    memWrite s a bs = .ok t ↔
      a + bs.length ≤ Config.memSize ∧ Config.fontEnd ≤ a ∧ t = { s with mem := memPutBytes s.mem a bs } := by
  unfold memWrite
  split
  · next h => simp; omega
  · split
    · next h => simp; omega
    · next h₁ h₂ =>
      simp only [Except.ok.injEq, eq_comm]
      exact ⟨fun h => ⟨by omega, by omega, h⟩, fun h => h.2.2⟩

theorem memWrite_error_iff (s : State) (a : Nat) (bs : List Byte) (f : Fault) :
    memWrite s a bs = .error f ↔
      (Config.memSize < a + bs.length ∨ a < Config.fontEnd) ∧ f = rangeFault s := by
  unfold memWrite
  split
  · next h => simp only [Except.error.injEq, eq_comm]; exact ⟨fun h' => ⟨.inl h, h'⟩, fun h' => h'.2⟩
  · split
    · next h => simp only [Except.error.injEq, eq_comm]; exact ⟨fun h' => ⟨.inr h, h'⟩, fun h' => h'.2⟩
    · next h₁ h₂ => simp; omega

/-! ### The call stack -/

/-- `Push` with room: the entry at SP is written and SP rises. -/
theorem push_ok (s : State) (w : Word) (h : s.sp.val < Config.stackDepth) :
    push s w = .ok { s with stack := s.stack.set s.sp.val w, sp := ⟨s.sp.val + 1, Nat.succ_lt_succ h⟩ } := by
  rw [push, dif_pos h]

theorem push_full (s : State) (w : Word) (h : s.sp.val = Config.stackDepth) : push s w = .error (rangeFault s) := by
  have : ¬ s.sp.val < Config.stackDepth := by omega
  rw [push, dif_neg this]

/-- What a `Push` that answers leaves. -/
theorem push_inv {s t : State} {w : Word} (h : push s w = .ok t) :
    ∃ room : s.sp.val < Config.stackDepth,
      t = { s with stack := s.stack.set s.sp.val w, sp := ⟨s.sp.val + 1, Nat.succ_lt_succ room⟩ } := by
  unfold push at h
  split at h
  · next room => cases h; exact ⟨room, rfl⟩
  · cases h

theorem pop_empty (s : State) (h : s.sp.val = 0) : pop s = .error (rangeFault s) := by
  rw [pop, dif_pos h]

/-- What a `Pop` that answers gives: the newest valid entry, and only SP has changed. -/
theorem pop_inv {s t : State} {w : Word} (h : pop s = .ok (w, t)) :
    ∃ (_ : s.sp.val ≠ 0) (below : s.sp.val - 1 < Config.stackDepth),
      w = s.stack[s.sp.val - 1] ∧ t = { s with sp := ⟨s.sp.val - 1, Nat.lt_succ_of_lt below⟩ } := by
  unfold pop at h
  split at h
  · cases h
  · next ne => cases h; exact ⟨ne, by have := s.sp.isLt; omega, rfl, rfl⟩

theorem pop_ok (s : State) (h : s.sp.val ≠ 0) :
    ∃ (below : s.sp.val - 1 < Config.stackDepth),
      pop s = .ok (s.stack[s.sp.val - 1], { s with sp := ⟨s.sp.val - 1, Nat.lt_succ_of_lt below⟩ }) :=
  ⟨by have := s.sp.isLt; omega, by rw [pop, dif_neg h]⟩

/-- `Push` and `Pop` fail in one way only. -/
theorem push_error {s : State} {w : Word} {f : Fault} (h : push s w = .error f) :
    s.sp.val = Config.stackDepth ∧ f = rangeFault s := by
  unfold push at h
  split at h
  · cases h
  · next ne => cases h; exact ⟨by have := s.sp.isLt; omega, rfl⟩

theorem pop_error {s : State} {f : Fault} (h : pop s = .error f) : s.sp.val = 0 ∧ f = rangeFault s := by
  unfold pop at h
  split at h
  · next e => cases h; exact ⟨e, rfl⟩
  · cases h

/-! ### Blocks of registers -/

/-- Writing a block of registers touches V alone. -/
theorem setRegsFrom_frame (bs : List Byte) :
    ∀ (s : State) (k : Nat), ∃ v, setRegsFrom s k bs = { s with v := v } := by
  induction bs with
  | nil => intro s k; exact ⟨s.v, rfl⟩
  | cons b bs ih =>
    intro s k
    rw [setRegsFrom]
    split
    · next h => obtain ⟨v, hv⟩ := ih (setReg s ⟨k, h⟩ b) (k + 1); exact ⟨v, hv⟩
    · exact ih s (k + 1)

/-- A block of registers from V[k] on: V[k+j] receives byte `j`, the registers outside the block keep theirs. -/
theorem reg_setRegsFrom (bs : List Byte) :
    ∀ (s : State) (k : Nat) (x : Reg),
      reg (setRegsFrom s k bs) x = if k ≤ x.val then bs.getD (x.val - k) (reg s x) else reg s x := by
  induction bs with
  | nil => intro s k x; simp [setRegsFrom]
  | cons b bs ih =>
    intro s k x
    rw [setRegsFrom, ih]
    have hx := x.isLt
    by_cases hk : k < Config.nreg
    · rw [dif_pos hk, reg_setReg]
      by_cases hxk : x.val = k
      · have e : x = ⟨k, hk⟩ := Fin.ext hxk
        simp [e]
      · have e : x ≠ ⟨k, hk⟩ := fun e => hxk (congrArg Fin.val e)
        by_cases hle : k ≤ x.val
        · rw [if_neg e, if_pos hle, if_pos (by omega), show x.val - k = (x.val - (k + 1)) + 1 by omega]
          simp
        · rw [if_neg e, if_neg hle, if_neg (by omega)]
    · rw [dif_neg hk, if_neg (by omega), if_neg (by omega)]

@[simp] theorem regsUpTo_length (s : State) (x : Reg) : (regsUpTo s x).length = x.val + 1 := by
  have := x.isLt
  simp only [regsUpTo, List.length_take, Vector.length_toList]
  omega

/-- Entry `k` of the block V[0] to V[x] is V[k]. -/
theorem regsUpTo_getElem (s : State) (x : Reg) (k : Nat) (h : k < (regsUpTo s x).length)
    (hk : k < Config.nreg) : (regsUpTo s x)[k] = reg s ⟨k, hk⟩ := by
  simp [regsUpTo, reg]

@[simp] theorem decimalDigits_length (b : Byte) : (decimalDigits b).length = 3 := rfl

end Sys2Proof.Machine
end

