-- ==== Sys2Proof/Laws/Exec.lean ====
section
/-! SUPPORT. What `exec` answers for each instruction, as one equation over the shared operations, under the condition
it needs and no other: later proofs unfold no meaning. -/

namespace Sys2Proof.Machine

/-! ### Instructions that always complete -/

theorem exec_cls (s : State) :
    exec .cls s = .next (advance { s with fb := Vector.replicate Config.fbBytes 0 }) := rfl

theorem exec_jpAddr (s : State) (nnn : Addr12) :
    exec (.jpAddr nnn) s = .next (setPc s (nnn.setWidth 16)) := rfl

theorem exec_jpV0Addr (s : State) (nnn : Addr12) :
    exec (.jpV0Addr nnn) s = .next (setPc s (offsetTarget s nnn)) := rfl

theorem exec_seVxByte (s : State) (x : Reg) (kk : Byte) :
    exec (.seVxByte x kk) s = .next (skipWhen (reg s x == kk) s) := rfl

theorem exec_seVxVy (s : State) (x : Reg) (y : Reg) :
    exec (.seVxVy x y) s = .next (skipWhen (reg s x == reg s y) s) := rfl

theorem exec_sneVxByte (s : State) (x : Reg) (kk : Byte) :
    exec (.sneVxByte x kk) s = .next (skipWhen (reg s x != kk) s) := rfl

theorem exec_sneVxVy (s : State) (x : Reg) (y : Reg) :
    exec (.sneVxVy x y) s = .next (skipWhen (reg s x != reg s y) s) := rfl

theorem exec_ldVxByte (s : State) (x : Reg) (kk : Byte) :
    exec (.ldVxByte x kk) s = .next (advance (setReg s x kk)) := rfl

theorem exec_ldVxVy (s : State) (x : Reg) (y : Reg) :
    exec (.ldVxVy x y) s = .next (advance (setReg s x (reg s y))) := rfl

theorem exec_addVxByte (s : State) (x : Reg) (kk : Byte) :
    exec (.addVxByte x kk) s = .next (advance (setReg s x (reg s x + kk))) := rfl

theorem exec_addVxVy (s : State) (x : Reg) (y : Reg) :
    exec (.addVxVy x y) s = .next (advance (setReg (setReg s x (reg s x + reg s y)) .flag (carryFlag (reg s x) (reg s y)))) := rfl

theorem exec_orVxVy (s : State) (x : Reg) (y : Reg) :
    exec (.orVxVy x y) s = .next (advance (setReg s x (reg s x ||| reg s y))) := rfl

theorem exec_andVxVy (s : State) (x : Reg) (y : Reg) :
    exec (.andVxVy x y) s = .next (advance (setReg s x (reg s x &&& reg s y))) := rfl

theorem exec_xorVxVy (s : State) (x : Reg) (y : Reg) :
    exec (.xorVxVy x y) s = .next (advance (setReg s x (reg s x ^^^ reg s y))) := rfl

theorem exec_subVxVy (s : State) (x : Reg) (y : Reg) :
    exec (.subVxVy x y) s = .next (advance (setReg (setReg s .flag (notBorrowFlag (reg s x) (reg s y))) x (reg s x - reg s y))) := rfl

theorem exec_subnVxVy (s : State) (x : Reg) (y : Reg) :
    exec (.subnVxVy x y) s = .next (advance (setReg (setReg s .flag (notBorrowFlag (reg s y) (reg s x))) x (reg s y - reg s x))) := rfl

theorem exec_shrVx (s : State) (x : Reg) :
    exec (.shrVx x) s = .next (advance (setReg (setReg s .flag (lowBitFlag (reg s x))) x (reg s x >>> 1))) := rfl

theorem exec_shlVx (s : State) (x : Reg) :
    exec (.shlVx x) s = .next (advance (setReg (setReg s .flag (highBitFlag (reg s x))) x (reg s x <<< 1))) := rfl

theorem exec_rndVxByte (s : State) (x : Reg) (kk : Byte) :
    exec (.rndVxByte x kk) s = .next (advance (setReg (consumeRandom s) x (nextRandom s &&& kk))) := rfl

theorem exec_ldIAddr (s : State) (nnn : Addr12) :
    exec (.ldIAddr nnn) s = .next (advance (setIndex s (nnn.setWidth 16))) := rfl

theorem exec_addIVx (s : State) (x : Reg) :
    exec (.addIVx x) s = .next (advance (setIndex s (s.i + (reg s x).setWidth 16))) := rfl

theorem exec_ldFVx (s : State) (x : Reg) :
    exec (.ldFVx x) s = .next (advance (setIndex s (glyphAddress (reg s x)))) := rfl

theorem exec_ldVxDT (s : State) (x : Reg) :
    exec (.ldVxDT x) s = .next (advance (setReg s x s.dt)) := rfl

theorem exec_ldDTVx (s : State) (x : Reg) :
    exec (.ldDTVx x) s = .next (advance { s with dt := reg s x }) := rfl

theorem exec_ldSTVx (s : State) (x : Reg) :
    exec (.ldSTVx x) s = .next (advance { s with st := reg s x }) := rfl

theorem exec_skpVx (s : State) (x : Reg) :
    exec (.skpVx x) s = .next (skipWhen (keyHeld s (reg s x)) s) := rfl

theorem exec_sknpVx (s : State) (x : Reg) :
    exec (.sknpVx x) s = .next (skipWhen (!keyHeld s (reg s x)) s) := rfl

/-! ### Instructions that complete under a condition, and fault otherwise -/

theorem exec_ret_empty (s : State) (h : s.sp.val = 0) : exec .ret s = .fault (rangeFault s) := by
  simp only [exec, execRet, pop_empty s h]

theorem exec_ret (s : State) (h : s.sp.val ≠ 0) :
    ∃ below : s.sp.val - 1 < Config.stackDepth,
      exec .ret s =
        .next (setPc { s with sp := ⟨s.sp.val - 1, Nat.lt_succ_of_lt below⟩ } s.stack[s.sp.val - 1]) := by
  obtain ⟨below, hp⟩ := pop_ok s h
  exact ⟨below, by simp only [exec, execRet, hp]⟩

theorem exec_callAddr_full (s : State) (nnn : Addr12) (h : s.sp.val = Config.stackDepth) :
    exec (.callAddr nnn) s = .fault (rangeFault s) := by
  simp only [exec, execCallAddr, push_full s _ h]

theorem exec_callAddr (s : State) (nnn : Addr12) (h : s.sp.val < Config.stackDepth) :
    exec (.callAddr nnn) s =
      .next (setPc { s with stack := s.stack.set s.sp.val (s.pc + 2),
                            sp := ⟨s.sp.val + 1, Nat.succ_lt_succ h⟩ } (nnn.setWidth 16)) := by
  simp only [exec, execCallAddr, push_ok s _ h]

/-- A store at I inside the writable memory. -/
theorem storeAtIndex_ok (s : State) (bytes : List Byte) (hi : dataAddress s + bytes.length ≤ Config.memSize)
    (lo : Config.fontEnd ≤ dataAddress s) :
    storeAtIndex s bytes = .next (advance { s with mem := memPutBytes s.mem (dataAddress s) bytes }) := by
  simp only [storeAtIndex, (memWrite_ok_iff s _ _ bytes).mpr ⟨hi, lo, rfl⟩]

/-- A store at I outside the writable memory. -/
theorem storeAtIndex_fault (s : State) (bytes : List Byte)
    (h : Config.memSize < dataAddress s + bytes.length ∨ dataAddress s < Config.fontEnd) :
    storeAtIndex s bytes = .fault (rangeFault s) := by
  simp only [storeAtIndex, (memWrite_error_iff s _ bytes _).mpr ⟨h, rfl⟩]

theorem exec_ldBVx (s : State) (x : Reg) : exec (.ldBVx x) s = storeAtIndex s (decimalDigits (reg s x)) := rfl

theorem exec_ldMemVx (s : State) (x : Reg) : exec (.ldMemVx x) s = storeAtIndex s (regsUpTo s x) := rfl

theorem exec_ldVxMem (s : State) (x : Reg) (h : dataAddress s + (x.val + 1) ≤ Config.memSize) :
    exec (.ldVxMem x) s = .next (advance (setRegsFrom s 0 (memBytes s.mem (dataAddress s) (x.val + 1)))) := by
  simp only [exec, execLdVxMem, (memRead_ok_iff s _ _ _).mpr ⟨h, rfl⟩]

theorem exec_ldVxMem_fault (s : State) (x : Reg) (h : Config.memSize < dataAddress s + (x.val + 1)) :
    exec (.ldVxMem x) s = .fault (rangeFault s) := by
  simp only [exec, execLdVxMem, (memRead_error_iff s _ _ _).mpr ⟨h, rfl⟩]

/-- DRW with its sprite inside memory: the framebuffer drawn on, and the collision in VF. -/
theorem exec_drwVxVyN (s : State) (x y : Reg) (n : Nibble) (hn : n ≠ 0#4)
    (h : dataAddress s + n.toNat ≤ Config.memSize) :
    exec (.drwVxVyN x y n) s =
      .next (advance (setReg
        { s with fb := (drawSprite s x y (memBytes s.mem (dataAddress s) n.toNat)).fb } .flag
        (collisionFlag (drawSprite s x y (memBytes s.mem (dataAddress s) n.toNat)).coll))) := by
  simp only [exec, execDrwVxVyN, if_neg hn, (memRead_ok_iff s _ _ _).mpr ⟨h, rfl⟩]

theorem exec_drwVxVyN_fault (s : State) (x y : Reg) (n : Nibble) (hn : n ≠ 0#4)
    (h : Config.memSize < dataAddress s + n.toNat) :
    exec (.drwVxVyN x y n) s = .fault (rangeFault s) := by
  simp only [exec, execDrwVxVyN, if_neg hn, (memRead_error_iff s _ _ _).mpr ⟨h, rfl⟩]

theorem exec_ldVxK_waits (s : State) (x : Reg) (h : s.edge = []) : exec (.ldVxK x) s = .next s := by
  simp [exec, execLdVxK, h]

theorem exec_ldVxK (s : State) (x : Reg) (older : List Key) (k : Key) (h : s.edge = older ++ [k]) :
    exec (.ldVxK x) s = .next (advance (setReg { s with edge := older } x (BitVec.ofNat 8 k.val))) := by
  simp [exec, execLdVxK, h]

/-! ### The step -/

/-- A step of the interpreter on a word that decodes is the execution of its instruction. -/
theorem interpret_decoded {s : State} {w : Word} {i : Instr} (hp : s.phase = .loaded) (hf : fetch s = .ok w)
    (hd : decode w = .ok i) : interpret s = exec i s := by
  simp only [interpret, hp, hf, hd]

/-- What a step of the interpreter that answers did: it executed the instruction decoded from the word at pc. -/
theorem interpret_next {s t : State} (h : interpret s = .next t) :
    ∃ w i, s.phase = .loaded ∧ fetch s = .ok w ∧ decode w = .ok i ∧ exec i s = .next t := by
  unfold interpret at h
  split at h
  · cases h
  · cases h
  · next hp =>
    split at h
    · cases h
    · next w hf =>
      split at h
      · cases h
      · next i hd => exact ⟨w, i, hp, hf, hd, h⟩

/-- A step with an empty agenda is a step of the interpreter. -/
theorem step_of_agenda_nil {s : State} (h : s.env.agenda = []) : step s = interpret s := by
  have e : takeEvent s = s := by
    rcases s with ⟨_, _, _, _, _, _, _, _, _, _, _, _, ⟨_, _, _⟩⟩
    simp only at h
    subst h
    rfl
  rw [step, e, nextEvent, h]
  rfl

/-- A step with an event on the agenda is that event. -/
theorem step_of_agenda_cons {s : State} {e : Event} {rest : List Event} (h : s.env.agenda = e :: rest) :
    step s = hostMove e (takeEvent s) := by
  rw [step, nextEvent, h]
  rfl

end Sys2Proof.Machine
end

