-- ==== Sys2Proof/Laws/PerInstr.lean ====
section
/-! SUPPORT. Facts per instruction: the word of a well-formed instruction lies in its own row of the opcode map, and
that row reads every operand back. -/

namespace Sys2Proof

/-! ### Fields of an assembled word -/

/-- A pattern that holds nothing below bit 12 has no bit there. -/
theorem low_bit {p : Word} (h : p &&& 0x0FFF = 0#16) (j : Nat) (hj : j < 12) : p[j] = false := by
  have := congrArg (fun w : Word => w[j]) h
  interval_cases j <;> simpa using this

theorem fieldKk_wordXkk (p : Word) (x : Reg) (kk : Byte) (h : p &&& 0x0FFF = 0#16) :
    fieldKk (wordXkk p x kk) = kk := by
  ext i hi
  interval_cases i <;> simp [fieldKk, wordXkk, wordX, low_bit h]

theorem fieldNnn_wordNnn (p : Word) (nnn : Addr12) (h : p &&& 0x0FFF = 0#16) : fieldNnn (wordNnn p nnn) = nnn := by
  ext i hi
  interval_cases i <;> simp [fieldNnn, wordNnn, low_bit h]

/-- The field `x` is the register whose bits stand in word[11:8]. -/
theorem fieldX_eq {w : Word} {x : Reg} (h : w.extractLsb' 8 4 = regBits x) : fieldX w = x := by
  rw [fieldX, h]; rfl

/-- The field `y` is the register whose bits stand in word[7:4]. -/
theorem fieldY_eq {w : Word} {y : Reg} (h : w.extractLsb' 4 4 = regBits y) : fieldY w = y := by
  rw [fieldY, h]; rfl

theorem fieldX_wordXkk (p : Word) (x : Reg) (kk : Byte) (h : p &&& 0x0FFF = 0#16) : fieldX (wordXkk p x kk) = x := by
  refine fieldX_eq ?_
  ext i hi
  interval_cases i <;> simp [wordXkk, wordX, low_bit h]

theorem fieldX_wordXyn (p : Word) (x y : Reg) (n : Nibble) (h : p &&& 0x0FFF = 0#16) :
    fieldX (wordXyn p x y n) = x := by
  refine fieldX_eq ?_
  ext i hi
  interval_cases i <;> simp [wordXyn, wordXy, wordX, low_bit h]

theorem fieldY_wordXyn (p : Word) (x y : Reg) (n : Nibble) (h : p &&& 0x0FFF = 0#16) :
    fieldY (wordXyn p x y n) = y := by
  refine fieldY_eq ?_
  ext i hi
  interval_cases i <;> simp [wordXyn, wordXy, wordX, low_bit h]

theorem fieldN_wordXyn (p : Word) (x y : Reg) (n : Nibble) (h : p &&& 0x0FFF = 0#16) :
    fieldN (wordXyn p x y n) = n := by
  ext i hi
  interval_cases i <;> simp [fieldN, wordXyn, wordXy, wordX, low_bit h]

/-- A word keeps its leading nibble whatever stands below bit 12. -/
theorem lead_wordNnn (p : Word) (nnn : Addr12) (h : p &&& 0x0FFF = 0#16) : wordNnn p nnn &&& 0xF000 = p := by
  ext i hi
  interval_cases i <;> simp [wordNnn, low_bit h]

theorem lead_wordXkk (p : Word) (x : Reg) (kk : Byte) (h : p &&& 0x0FFF = 0#16) : wordXkk p x kk &&& 0xF000 = p := by
  ext i hi
  interval_cases i <;> simp [wordXkk, wordX, low_bit h]

theorem lead_wordXyn (p : Word) (x y : Reg) (n : Nibble) (h : p &&& 0x0FFF = 0#16) :
    wordXyn p x y n &&& 0xF000 = p := by
  ext i hi
  interval_cases i <;> simp [wordXyn, wordXy, wordX, low_bit h]

end Sys2Proof

/-! ### The rows, per instruction -/

namespace Sys2Proof.Laws.OwnRow

open Sys2Proof

/-- The word of a well-formed instruction matches a row of the opcode map that reads the instruction back. -/
def Statement (i : Instr) : Prop :=
  wellFormed i = true → ∃ r ∈ opcodeMap, rowAccepts (encode i) r = true ∧ r.build (encode i) = i

/-- A row at a place of the map. -/
theorem of_place {i : Instr} (k : Nat) (hk : k < opcodeMap.length) (accepts : rowAccepts (encode i) opcodeMap[k] = true)
    (build : opcodeMap[k].build (encode i) = i) : Statement i :=
  fun _ => ⟨opcodeMap[k], List.getElem_mem hk, accepts, build⟩

theorem cls : Statement .cls :=
  of_place 0 (by decide) (by decide) (by decide)

theorem ret : Statement .ret :=
  of_place 1 (by decide) (by decide) (by decide)

theorem jpAddr (nnn : Addr12) : Statement (.jpAddr nnn) :=
  of_place 2 (by decide) (by simp only [rowAccepts, encode]; rw [show opcodeMap[2].mask = 0xF000 from rfl, lead_wordNnn _ _ (by decide)]; rfl)
    (congrArg Instr.jpAddr (fieldNnn_wordNnn _ _ (by decide)))

theorem callAddr (nnn : Addr12) : Statement (.callAddr nnn) :=
  of_place 3 (by decide) (by simp only [rowAccepts, encode]; rw [show opcodeMap[3].mask = 0xF000 from rfl, lead_wordNnn _ _ (by decide)]; rfl)
    (congrArg Instr.callAddr (fieldNnn_wordNnn _ _ (by decide)))

theorem seVxByte (x : Reg) (kk : Byte) : Statement (.seVxByte x kk) :=
  of_place 4 (by decide) (by simp only [rowAccepts, encode]; rw [show opcodeMap[4].mask = 0xF000 from rfl, lead_wordXkk _ _ _ (by decide)]; rfl)
    (congrArg₂ Instr.seVxByte (fieldX_wordXkk _ _ _ (by decide)) (fieldKk_wordXkk _ _ _ (by decide)))

theorem seVxVy (x : Reg) (y : Reg) : Statement (.seVxVy x y) :=
  of_place 5 (by decide) (by revert x y; decide) (by revert x y; decide)

theorem sneVxByte (x : Reg) (kk : Byte) : Statement (.sneVxByte x kk) :=
  of_place 6 (by decide) (by simp only [rowAccepts, encode]; rw [show opcodeMap[6].mask = 0xF000 from rfl, lead_wordXkk _ _ _ (by decide)]; rfl)
    (congrArg₂ Instr.sneVxByte (fieldX_wordXkk _ _ _ (by decide)) (fieldKk_wordXkk _ _ _ (by decide)))

theorem sneVxVy (x : Reg) (y : Reg) : Statement (.sneVxVy x y) :=
  of_place 7 (by decide) (by revert x y; decide) (by revert x y; decide)

theorem ldVxByte (x : Reg) (kk : Byte) : Statement (.ldVxByte x kk) :=
  of_place 8 (by decide) (by simp only [rowAccepts, encode]; rw [show opcodeMap[8].mask = 0xF000 from rfl, lead_wordXkk _ _ _ (by decide)]; rfl)
    (congrArg₂ Instr.ldVxByte (fieldX_wordXkk _ _ _ (by decide)) (fieldKk_wordXkk _ _ _ (by decide)))

theorem ldVxVy (x : Reg) (y : Reg) : Statement (.ldVxVy x y) :=
  of_place 9 (by decide) (by revert x y; decide) (by revert x y; decide)

theorem ldIAddr (nnn : Addr12) : Statement (.ldIAddr nnn) :=
  of_place 10 (by decide) (by simp only [rowAccepts, encode]; rw [show opcodeMap[10].mask = 0xF000 from rfl, lead_wordNnn _ _ (by decide)]; rfl)
    (congrArg Instr.ldIAddr (fieldNnn_wordNnn _ _ (by decide)))

theorem addVxByte (x : Reg) (kk : Byte) : Statement (.addVxByte x kk) :=
  of_place 11 (by decide) (by simp only [rowAccepts, encode]; rw [show opcodeMap[11].mask = 0xF000 from rfl, lead_wordXkk _ _ _ (by decide)]; rfl)
    (congrArg₂ Instr.addVxByte (fieldX_wordXkk _ _ _ (by decide)) (fieldKk_wordXkk _ _ _ (by decide)))

theorem addVxVy (x : Reg) (y : Reg) : Statement (.addVxVy x y) :=
  of_place 12 (by decide) (by revert x y; decide) (by revert x y; decide)

theorem orVxVy (x : Reg) (y : Reg) : Statement (.orVxVy x y) :=
  of_place 13 (by decide) (by revert x y; decide) (by revert x y; decide)

theorem andVxVy (x : Reg) (y : Reg) : Statement (.andVxVy x y) :=
  of_place 14 (by decide) (by revert x y; decide) (by revert x y; decide)

theorem xorVxVy (x : Reg) (y : Reg) : Statement (.xorVxVy x y) :=
  of_place 15 (by decide) (by revert x y; decide) (by revert x y; decide)

theorem subVxVy (x : Reg) (y : Reg) : Statement (.subVxVy x y) :=
  of_place 16 (by decide) (by revert x y; decide) (by revert x y; decide)

theorem subnVxVy (x : Reg) (y : Reg) : Statement (.subnVxVy x y) :=
  of_place 17 (by decide) (by revert x y; decide) (by revert x y; decide)

theorem shrVx (x : Reg) : Statement (.shrVx x) :=
  of_place 18 (by decide) (by revert x; decide) (by revert x; decide)

theorem shlVx (x : Reg) : Statement (.shlVx x) :=
  of_place 19 (by decide) (by revert x; decide) (by revert x; decide)

theorem rndVxByte (x : Reg) (kk : Byte) : Statement (.rndVxByte x kk) :=
  of_place 20 (by decide) (by simp only [rowAccepts, encode]; rw [show opcodeMap[20].mask = 0xF000 from rfl, lead_wordXkk _ _ _ (by decide)]; rfl)
    (congrArg₂ Instr.rndVxByte (fieldX_wordXkk _ _ _ (by decide)) (fieldKk_wordXkk _ _ _ (by decide)))

theorem jpV0Addr (nnn : Addr12) : Statement (.jpV0Addr nnn) :=
  of_place 21 (by decide) (by simp only [rowAccepts, encode]; rw [show opcodeMap[21].mask = 0xF000 from rfl, lead_wordNnn _ _ (by decide)]; rfl)
    (congrArg Instr.jpV0Addr (fieldNnn_wordNnn _ _ (by decide)))

theorem drwVxVyN (x : Reg) (y : Reg) (n : Nibble) : Statement (.drwVxVyN x y n) := by
  intro hn
  have hn : n ≠ 0#4 := by simpa [wellFormed] using hn
  have hf : fieldN (wordXyn 0xD000 x y n) = n := fieldN_wordXyn _ _ _ _ (by decide)
  refine ⟨opcodeMap[22], List.getElem_mem (by decide), ?_, ?_⟩
  · simp only [rowAccepts, encode]
    rw [show opcodeMap[22].mask = 0xF000 from rfl, lead_wordXyn _ _ _ _ (by decide),
      show opcodeMap[22].excluded (wordXyn 0xD000 x y n) = (fieldN (wordXyn 0xD000 x y n) == 0#4) from rfl, hf]
    simp only [beq_eq_false_iff_ne.mpr hn]
    rfl
  · show Instr.drwVxVyN (fieldX _) (fieldY _) (fieldN _) = _
    rw [encode, hf, fieldX_wordXyn _ _ _ _ (by decide), fieldY_wordXyn _ _ _ _ (by decide)]

theorem skpVx (x : Reg) : Statement (.skpVx x) :=
  of_place 23 (by decide) (by revert x; decide) (by revert x; decide)

theorem sknpVx (x : Reg) : Statement (.sknpVx x) :=
  of_place 24 (by decide) (by revert x; decide) (by revert x; decide)

theorem ldVxDT (x : Reg) : Statement (.ldVxDT x) :=
  of_place 25 (by decide) (by revert x; decide) (by revert x; decide)

theorem ldDTVx (x : Reg) : Statement (.ldDTVx x) :=
  of_place 26 (by decide) (by revert x; decide) (by revert x; decide)

theorem ldSTVx (x : Reg) : Statement (.ldSTVx x) :=
  of_place 27 (by decide) (by revert x; decide) (by revert x; decide)

theorem addIVx (x : Reg) : Statement (.addIVx x) :=
  of_place 28 (by decide) (by revert x; decide) (by revert x; decide)

theorem ldFVx (x : Reg) : Statement (.ldFVx x) :=
  of_place 29 (by decide) (by revert x; decide) (by revert x; decide)

theorem ldBVx (x : Reg) : Statement (.ldBVx x) :=
  of_place 30 (by decide) (by revert x; decide) (by revert x; decide)

theorem ldMemVx (x : Reg) : Statement (.ldMemVx x) :=
  of_place 31 (by decide) (by revert x; decide) (by revert x; decide)

theorem ldVxMem (x : Reg) : Statement (.ldVxMem x) :=
  of_place 32 (by decide) (by revert x; decide) (by revert x; decide)

theorem ldVxK (x : Reg) : Statement (.ldVxK x) :=
  of_place 33 (by decide) (by revert x; decide) (by revert x; decide)

end Sys2Proof.Laws.OwnRow
end

