-- ==== Sys2Proof/Tests/Slice0.lean ====
section
/-! SUPPORT. Tests on fixed values, each expected result taken from spec/: the encodings of 30_encoding.md R75 written
out bit by bit, and vectors of 95_test_vectors.md (named in each comment). Then the witnesses: for every statement that
has hypotheses, a state and operands that meet them together. -/

namespace Sys2Proof.Tests

open Sys2Proof Sys2Proof.Machine

/-! ### Well-formedness -/

/-- 43_display.md R157: `n` = 0 is not a DRW. -/
theorem test_wellFormed_refuses_drw_without_rows : wellFormed (.drwVxVyN 0 1 0) = false := by decide

theorem test_wellFormed_accepts_drw_with_rows : wellFormed (.drwVxVyN 0 1 15) = true := by decide

/-! ### Decoding: every constructor, by a word written out from the map of R75 -/

theorem test_decode_control :
    decode 0b0000000011100000 = .ok .cls ∧ decode 0b0000000011101110 = .ok .ret ∧
    decode 0b0001001000101000 = .ok (.jpAddr 0x228) ∧ decode 0b0010001100000001 = .ok (.callAddr 0x301) ∧
    decode 0b0011101001000010 = .ok (.seVxByte 0xA 0x42) ∧ decode 0b0101000100100000 = .ok (.seVxVy 1 2) ∧
    decode 0b0100101001000010 = .ok (.sneVxByte 0xA 0x42) ∧ decode 0b1001000100100000 = .ok (.sneVxVy 1 2) ∧
    decode 0b1011001100000010 = .ok (.jpV0Addr 0x302) := by decide

theorem test_decode_registers :
    decode 0b0110101011111110 = .ok (.ldVxByte 0xA 0xFE) ∧ decode 0b1000000100100000 = .ok (.ldVxVy 1 2) ∧
    decode 0b0111000100000101 = .ok (.addVxByte 1 5) ∧ decode 0b1000000100100100 = .ok (.addVxVy 1 2) ∧
    decode 0b1000000100100001 = .ok (.orVxVy 1 2) ∧ decode 0b1000000100100010 = .ok (.andVxVy 1 2) ∧
    decode 0b1000000100100011 = .ok (.xorVxVy 1 2) ∧ decode 0b1000000100100101 = .ok (.subVxVy 1 2) ∧
    decode 0b1000000100100111 = .ok (.subnVxVy 1 2) ∧ decode 0b1000000111110110 = .ok (.shrVx 1) ∧
    decode 0b1000000100101110 = .ok (.shlVx 1) ∧ decode 0b1100000111110000 = .ok (.rndVxByte 1 0xF0) := by decide

theorem test_decode_memory :
    decode 0b1010000100100011 = .ok (.ldIAddr 0x123) ∧ decode 0b1111000100011110 = .ok (.addIVx 1) ∧
    decode 0b1111001000101001 = .ok (.ldFVx 2) ∧ decode 0b1111001100110011 = .ok (.ldBVx 3) ∧
    decode 0b1111010001010101 = .ok (.ldMemVx 4) ∧ decode 0b1111010101100101 = .ok (.ldVxMem 5) := by decide

theorem test_decode_display_timers_keys :
    decode 0b1101010110100111 = .ok (.drwVxVyN 5 0xA 7) ∧ decode 0b1110000110011110 = .ok (.skpVx 1) ∧
    decode 0b1110001010100001 = .ok (.sknpVx 2) ∧ decode 0b1111001100000111 = .ok (.ldVxDT 3) ∧
    decode 0b1111010000010101 = .ok (.ldDTVx 4) ∧ decode 0b1111010100011000 = .ok (.ldSTVx 5) ∧
    decode 0b1111011000001010 = .ok (.ldVxK 6) := by decide

/-- V-ENC-1 to V-ENC-13 and V-DSP-14: one word of each line of the table of 30_encoding.md R77. -/
theorem test_decode_illegal :
    decode 0x0000 = .error .leadingZero ∧ decode 0x00E1 = .error .leadingZero ∧
    decode 0x0123 = .error .leadingZero ∧ decode 0x5121 = .error .seLowNibble ∧
    decode 0x8128 = .error .aluLowNibble ∧ decode 0x812F = .error .aluLowNibble ∧
    decode 0x9121 = .error .sneLowNibble ∧ decode 0xD010 = .error .drwNoRows ∧
    decode 0xE19F = .error .keyByte ∧ decode 0xE000 = .error .keyByte ∧ decode 0xF125 = .error .miscByte ∧
    decode 0xF175 = .error .miscByte ∧ decode 0xFFFF = .error .miscByte ∧
    decodeBytes [0x12] = .error .truncated := by decide

/-- V-FLD-2: the bytes 12 28 are the word 1228, not 2812. -/
theorem test_decode_bytes_big_endian :
    decodeBytes [0x12, 0x28, 0xFF] = .ok (.jpAddr 0x228, [0xFF]) ∧
    decodeTableWord 16 0x1228 = some (.jpAddr 0x228) := by decide

/-! ### One step on a small state -/

/-- The state of the vectors of 95_test_vectors.md: after construct and load. -/
def loaded : State := { State.reset with phase := .loaded }

/-- `loaded` with registers written. -/
def withRegs (s : State) (rs : List (Reg × Byte)) : State := rs.foldl (fun s r => setReg s r.1 r.2) s

/-- `loaded` with bytes of MEM written at `a` and I pointing there. -/
def withBytes (s : State) (a : Nat) (bs : List Byte) : State :=
  { s with i := BitVec.ofNat 16 a, mem := memPutBytes s.mem a bs }

/-- `loaded` with the valid stack entries `ws`. -/
def withStack (s : State) (w : Word) (sp : Fin 17) : State :=
  { s with stack := Vector.replicate Config.stackDepth w, sp := sp }

/-- What a look at the state after one step on word `w` at pc sees, where the step completes. -/
def seen {α : Type} (s : State) (w : Nat) (look : State → α) : Option α :=
  match step (s.withFetchWord 16 w) with
  | .next t => some (look t)
  | .fault _ => none
  | .refused _ => none

/-- The kind of fault a step on word `w` at pc raises. -/
def faultSeen (s : State) (w : Nat) : Option Fault :=
  match step (s.withFetchWord 16 w) with
  | .next _ => none
  | .fault f => some f
  | .refused _ => none

/-- V-CF-1 and V-CF-3. -/
theorem test_ret : seen (withStack loaded 0x206 1) 0x00EE (fun t => (t.pc, t.sp)) = some (0x206, 0) := by decide
theorem test_ret_empty : faultSeen loaded 0x00EE = some (.operandRangeError 0x200 (some 0x00EE)) := by decide

/-- V-CF-7. -/
theorem test_jp : seen loaded 0x1FFF (fun t => t.pc) = some 0xFFF := by decide

/-- V-CF-9 and V-CF-11. -/
theorem test_call : seen loaded 0x2300 (fun t => (t.pc, t.sp, t.stack[0])) = some (0x300, 1, 0x202) := by decide
theorem test_call_full :
    faultSeen (withStack loaded 0x202 16) 0x2300 = some (.operandRangeError 0x200 (some 0x2300)) := by decide

/-- V-CF-13, V-CF-14; V-CF-16, V-CF-17; V-CF-18, V-CF-19; V-CF-20, V-CF-22. -/
theorem test_se_byte :
    seen (withRegs loaded [(0xA, 0x42)]) 0x3A42 (fun t => t.pc) = some 0x204 ∧
    seen (withRegs loaded [(0xA, 0x43)]) 0x3A42 (fun t => t.pc) = some 0x202 := by decide
theorem test_se_reg :
    seen (withRegs loaded [(1, 9), (2, 8)]) 0x5120 (fun t => t.pc) = some 0x202 ∧
    seen (withRegs loaded [(3, 0x77)]) 0x5330 (fun t => t.pc) = some 0x204 := by decide
theorem test_sne_byte :
    seen (withRegs loaded [(0xA, 0x42)]) 0x4A42 (fun t => t.pc) = some 0x202 ∧
    seen loaded 0x4A42 (fun t => t.pc) = some 0x204 := by decide
theorem test_sne_reg :
    seen (withRegs loaded [(1, 9), (2, 8)]) 0x9120 (fun t => t.pc) = some 0x204 ∧
    seen (withRegs loaded [(4, 1)]) 0x9440 (fun t => t.pc) = some 0x202 := by decide

/-- V-CF-24: the sum is not reduced. -/
theorem test_jp_v0 : seen (withRegs loaded [(0, 0xFF)]) 0xBFFF (fun t => t.pc) = some 0x10FE := by decide

/-- V-ALU-1, V-ALU-2. -/
theorem test_ld_byte : seen loaded 0x6AFF (fun t => (reg t 0xA, t.pc)) = some (0xFF, 0x202) := by decide
theorem test_ld_reg : seen (withRegs loaded [(1, 0x55), (2, 7)]) 0x8120 (fun t => (reg t 1, reg t 2)) = some (7, 7) := by
  decide

/-- V-ALU-3 and V-ALU-36. -/
theorem test_add_byte :
    seen (withRegs loaded [(1, 0xFE), (15, 0xAA)]) 0x7105 (fun t => (reg t 1, reg t 15)) = some (3, 0xAA) := by decide
theorem test_add_byte_vf : seen (withRegs loaded [(15, 2)]) 0x7FFF (fun t => reg t 15) = some 1 := by decide

/-- V-ALU-4 and V-ALU-12 (D10). -/
theorem test_add :
    seen (withRegs loaded [(1, 0xFF), (2, 1)]) 0x8124 (fun t => (reg t 1, reg t 15)) = some (0, 1) := by decide
theorem test_add_vf : seen (withRegs loaded [(15, 0xFF), (1, 1)]) 0x8F14 (fun t => reg t 15) = some 1 := by decide

/-- V-ALU-8, V-ALU-9, V-ALU-10. -/
theorem test_or :
    seen (withRegs loaded [(1, 0xF0), (2, 0x0F), (15, 0xAA)]) 0x8121 (fun t => (reg t 1, reg t 15)) =
      some (0xFF, 0xAA) := by decide
theorem test_and :
    seen (withRegs loaded [(1, 0xF0), (2, 0x3C), (15, 0xAA)]) 0x8122 (fun t => (reg t 1, reg t 15)) =
      some (0x30, 0xAA) := by decide
theorem test_xor :
    seen (withRegs loaded [(1, 0xFF), (2, 0x0F), (15, 0xAA)]) 0x8123 (fun t => (reg t 1, reg t 15)) =
      some (0xF0, 0xAA) := by decide

/-- V-ALU-11 and V-ALU-14 (D10). -/
theorem test_sub :
    seen (withRegs loaded [(1, 5), (2, 0xA)]) 0x8125 (fun t => (reg t 1, reg t 15)) = some (0xFB, 0) := by decide
theorem test_sub_vf : seen (withRegs loaded [(15, 5), (1, 0xA)]) 0x8F15 (fun t => reg t 15) = some 0xFB := by decide

/-- V-ALU-22 and V-ALU-24. -/
theorem test_subn :
    seen (withRegs loaded [(1, 5), (2, 0xA)]) 0x8127 (fun t => (reg t 1, reg t 15)) = some (5, 1) := by decide
theorem test_subn_borrow :
    seen (withRegs loaded [(1, 1), (15, 1)]) 0x8127 (fun t => (reg t 1, reg t 15)) = some (0xFF, 0) := by decide

/-- V-ALU-26, V-ALU-17 (D10); V-ALU-31, V-ALU-18 (D10). -/
theorem test_shr : seen (withRegs loaded [(1, 0xFF)]) 0x8126 (fun t => (reg t 1, reg t 15)) = some (0x7F, 1) := by decide
theorem test_shr_vf : seen (withRegs loaded [(15, 3)]) 0x8F06 (fun t => reg t 15) = some 1 := by decide
theorem test_shl : seen (withRegs loaded [(1, 0x81)]) 0x81FE (fun t => (reg t 1, reg t 15)) = some (2, 1) := by decide
theorem test_shl_vf : seen (withRegs loaded [(15, 0x81)]) 0x8F0E (fun t => reg t 15) = some 2 := by decide

/-- V-ALU-32: the draw is A7; and the byte is consumed (49_host_interface.md R185). -/
theorem test_rnd :
    seen { loaded with env := { Inputs.none with randomBytes := [0xA7, 0x5C] } } 0xC1F0
      (fun t => (reg t 1, t.env.randomBytes)) = some (0xA0, [0x5C]) := by decide

/-- V-MEM-1; V-MEM-4; V-MEM-6, V-MEM-7. -/
theorem test_ld_i : seen { loaded with i := 0xFFFF } 0xA123 (fun t => t.i) = some 0x123 := by decide
theorem test_add_i :
    seen { withRegs loaded [(0, 0xFF)] with i := 0xFFFF } 0xF01E (fun t => (t.i, reg t 15)) = some (0xFE, 0) := by decide
theorem test_ld_f :
    seen (withRegs loaded [(0, 0xFF)]) 0xF029 (fun t => t.i) = some 0x4B ∧
    seen (withRegs loaded [(0, 0x10)]) 0xF029 (fun t => t.i) = some 0 := by decide

/-- V-MEM-8 and V-MEM-13. -/
theorem test_ld_b :
    seen { withRegs loaded [(0, 0xFE)] with i := 0x300 } 0xF033 (fun t => memBytes t.mem 0x300 3) =
      some [2, 5, 4] := by decide
theorem test_ld_b_font :
    faultSeen { withRegs loaded [(0, 0xFF)] with i := 0x4F } 0xF033 =
      some (.operandRangeError 0x200 (some 0xF033)) := by decide

/-- V-MEM-15 and V-MEM-20. -/
theorem test_block_store :
    seen { withRegs loaded [(0, 0x11), (1, 0x22), (2, 0x33), (3, 0x44)] with i := 0x300 } 0xF255
      (fun t => (memBytes t.mem 0x300 4, t.i)) = some ([0x11, 0x22, 0x33, 0], 0x300) := by decide
theorem test_block_store_past_end :
    faultSeen { withRegs loaded [(0, 0x99)] with i := 0x1000 } 0xF055 =
      some (.operandRangeError 0x200 (some 0xF055)) := by decide

/-- V-MEM-21 and V-MEM-22. -/
theorem test_block_load :
    seen (withBytes (withRegs loaded [(3, 0x44)]) 0x300 [2, 5, 4, 9]) 0xF265
      (fun t => (reg t 0, reg t 1, reg t 2, reg t 3)) = some (2, 5, 4, 0x44) := by decide
theorem test_block_load_font : seen loaded 0xF065 (fun t => reg t 0) = some 0xF0 := by decide

/-- V-DSP-1, at one byte of FB. -/
theorem test_cls :
    seen { withRegs loaded [(15, 1)] with fb := loaded.fb.set 3 0xFF } 0x00E0 (fun t => (t.fb[3], reg t 15)) =
      some (0, 1) := rfl

/-- V-DSP-5; V-DSP-2 (wrap from column 63 to 0) and V-DSP-9 (wrap from row 31 to 0). -/
theorem test_drw_collision :
    seen { withBytes loaded 0x300 [0x81] with fb := loaded.fb.set 0 1 } 0xD011
      (fun t => (t.fb[0], reg t 15)) = some (0x80, 1) := by decide
theorem test_drw_wraps :
    seen (withBytes (withRegs loaded [(0, 0x3C)]) 0x300 [0xFF]) 0xD011 (fun t => (t.fb[0], t.fb[7], reg t 15)) =
      some (0xF0, 0x0F, 0) ∧
    seen (withBytes (withRegs loaded [(1, 0x1F)]) 0x300 [0x80, 0x40]) 0xD012 (fun t => t.fb[0]) = some 0x40 := by
  decide

/-- V-TK-1, V-TK-2, V-TK-4. -/
theorem test_ld_from_dt : seen { loaded with dt := 0x2A } 0xF307 (fun t => reg t 3) = some 0x2A := by decide
theorem test_ld_dt : seen (withRegs loaded [(3, 0x78)]) 0xF315 (fun t => t.dt) = some 0x78 := by decide
theorem test_ld_st : seen (withRegs loaded [(2, 5)]) 0xF218 (fun t => (t.st, t.dt)) = some (5, 0) := by decide

/-- Key 5 alone held. -/
def held5 : KeySet := (Vector.replicate Config.nkeys false).set 5 true

/-- V-TK-5, V-TK-7; V-TK-10, V-TK-11. -/
theorem test_skp :
    seen { withRegs loaded [(1, 5)] with held := held5 } 0xE19E (fun t => t.pc) = some 0x204 ∧
    seen { withRegs loaded [(1, 0x15)] with held := held5 } 0xE19E (fun t => t.pc) = some 0x202 := by decide
theorem test_sknp :
    seen { withRegs loaded [(1, 5)] with held := held5 } 0xE1A1 (fun t => t.pc) = some 0x202 ∧
    seen { withRegs loaded [(1, 0x15)] with held := held5 } 0xE1A1 (fun t => t.pc) = some 0x204 := by decide

/-- V-TK-14 and V-TK-12. -/
theorem test_key_wait :
    seen { loaded with edge := [4, 7, 1] } 0xF30A (fun t => (reg t 3, t.edge, t.pc)) = some (1, [4, 7], 0x202) := by
  decide
theorem test_key_wait_retries :
    seen (withRegs loaded [(3, 0x99)]) 0xF30A (fun t => (reg t 3, t.pc)) = some (0x99, 0x200) ∧
    (fire .step (loaded.withFetchWord 16 0xF30A)).1 = .retry := by decide

/-! ### Faults of the fetch, and the host's events -/

/-- F3 and F7 of 95_test_vectors.md: an odd pc; a pc without room. F10: 0xFFE is the last legal pc. -/
theorem test_fetch_faults :
    step { loaded with pc := 0x201 } = .fault (.operandRangeError 0x201 none) ∧
    step { loaded with pc := 0x1000 } = .fault (.operandRangeError 0x1000 none) ∧
    step { loaded with pc := 0xFFE } = .fault (.decodeError 0xFFE 0) := ⟨rfl, rfl, rfl⟩

/-- V-H-1, V-H-2, V-H-3. -/
theorem test_tick :
    (tick { loaded with dt := 1 }).dt = 0 ∧ (tick loaded).dt = 0 ∧
    (tick { loaded with dt := 0xFF, st := 2 }).dt = 0xFE ∧ (tick { loaded with dt := 0xFF, st := 2 }).st = 1 := by
  decide

/-- V-H-6, V-H-7. -/
theorem test_poll :
    (pollInput (Vector.replicate Config.nkeys false) [] { loaded with edge := [2] }).edge = [2] ∧
    (pollInput held5 [2, 3] { loaded with edge := [2, 5] }).edge = [5, 2, 3] := by decide

/-- V-H-11 (D30): an image of one byte, loaded and stepped from reset through the agenda. -/
theorem test_load_then_step :
    step { State.reset with env := { Inputs.none with agenda := [.load [0x12]] } } =
      .next { State.reset with phase := .loaded, mem := [(0x200, 0x12)] } ∧
    step { State.reset with phase := .loaded, mem := [(0x200, 0x12)] } =
      .next { State.reset with phase := .loaded, mem := [(0x200, 0x12)] } := ⟨rfl, rfl⟩

/-- V-H-14. -/
theorem test_step_outside_its_phase :
    step State.reset = .refused .stepBeforeLoad ∧
    step { State.reset with phase := .faulted } = .refused .machineFaulted := ⟨rfl, rfl⟩

/-- 20_memory.md R61: 80 bytes, glyph A at 0x032 and glyph F at 0x04B. -/
theorem test_font :
    fontTable.length = Config.fontEnd ∧ memBytes State.reset.mem 0x32 5 = [0xF0, 0x90, 0xF0, 0x90, 0x90] ∧
    memBytes State.reset.mem 0x4B 6 = [0xF0, 0x80, 0xF0, 0x80, 0x80, 0] := by decide

/-- The constraints of 00_scope.md R5 on the parameters. -/
theorem test_parameters_valid :
    Config.width % 8 = 0 ∧ 8 ≤ Config.width ∧ 15 ≤ Config.height ∧
    Config.fbBytes = Config.width * Config.height / 8 ∧
    Config.fontEnd = Config.fontBase + 16 * Config.fontGlyphBytes ∧ Config.fontEnd ≤ Config.loadBase ∧
    Config.loadBase ≤ Config.memSize ∧ Config.loadBase % 2 = 0 ∧ Config.memSize + 2 ≤ 2 ^ 16 ∧
    2 ^ 12 + 255 < 2 ^ 16 := by decide

/-! ### Witnesses: for each statement with hypotheses, a state and operands that meet them all together; where clauses
meet at a boundary, one on each side of it -/

/-- `loaded` with the word `w` at pc. -/
def placed (w : Nat) : State := loaded.withFetchWord 16 w

/-- `loaded` with I at `a`. -/
def atIndex (a : Word) : State := { loaded with i := a }

theorem witness_FetchedWordFieldsAreBitSlices :
    fetch { loaded with pc := 0xFFE } = .ok 0 ∧ fetch (placed 0xD5A7) = .ok 0xD5A7 := ⟨rfl, rfl⟩

theorem witness_AtMostOneRowMatches : ∃ j : Fin opcodeMap.length, rowAccepts 0x00EE opcodeMap[j] = true :=
  ⟨⟨1, by decide⟩, by decide⟩

theorem witness_DecodeOfEncode : wellFormed (.drwVxVyN 15 15 1) = true ∧ wellFormed (.shrVx 15) = true := by decide

theorem witness_EncodeOfDecode : decode 0x8FF6 = .ok (.shrVx 15) ∧ decode 0xDFF1 = .ok (.drwVxVyN 15 15 1) := by
  decide

theorem witness_StepRunsTheDecodedInstruction :
    (placed 0x6AFF).phase = .loaded ∧ fetch (placed 0x6AFF) = .ok 0x6AFF ∧
    decode 0x6AFF = .ok (.ldVxByte 0xA 0xFF) ∧ (placed 0x6AFF).env.agenda = [] ∧
    fetch { placed 0x6AFF with env := { Inputs.none with agenda := [.step, .tick] } } = .ok 0x6AFF :=
  ⟨rfl, rfl, by decide, rfl, rfl⟩

theorem witness_PlacedWordIsExecuted : 0xFF65 < 65536 ∧ decodeTableWord 16 0xFF65 = some (.ldVxMem 15) := by decide

/-- Each clause: an odd pc on both sides of the end of memory; an even pc at it; the last legal pc. -/
theorem witness_FetchFaultsAtOddOrHighPc :
    loaded.phase = .loaded ∧ loaded.env.agenda = [] ∧
    step { loaded with pc := 0xFFF } = .fault (.operandRangeError 0xFFF none) ∧
    step { loaded with pc := 0x1001 } = .fault (.operandRangeError 0x1001 none) ∧
    (0x1000#16).toNat % 2 = 0 ∧ 4094 < (0x1000#16).toNat ∧
    fetch { loaded with pc := 0xFFE } = .ok (wordOfBytes 0 0) := ⟨rfl, rfl, rfl, rfl, by decide, by decide, rfl⟩

theorem witness_DecodeErrorExactlyOnIllegalWords :
    fetch (placed 0xD010) = .ok 0xD010 ∧ illegalWord 0xD010 = true ∧ illegalWord 0xD011 = false :=
  ⟨rfl, by decide, by decide⟩

theorem witness_FaultChangesPhaseAlone :
    (∃ t, fire .step { loaded with pc := 0x201 } = (.fault (.operandRangeError 0x201 none), t)) ∧
    (∃ t, fire .step (placed 0x00EE) = (.fault (.operandRangeError 0x200 (some 0x00EE)), t)) := ⟨⟨_, rfl⟩, ⟨_, rfl⟩⟩

/-- Conditions c to h of R202, each at the last operand that runs and the first that faults. -/
theorem witness_RangeFaultsExactlyAsListed :
    rangeFaults (.callAddr 0x300) (withStack loaded 0x202 15) = false ∧
    rangeFaults (.callAddr 0x300) (withStack loaded 0x202 16) = true ∧
    rangeFaults .ret (withStack loaded 0x202 1) = false ∧ rangeFaults .ret loaded = true ∧
    rangeFaults (.drwVxVyN 0 1 15) (atIndex 0xFF1) = false ∧ rangeFaults (.drwVxVyN 0 1 15) (atIndex 0xFF2) = true ∧
    rangeFaults (.ldBVx 0) (atIndex 0x4F) = true ∧ rangeFaults (.ldBVx 0) (atIndex 0x50) = false ∧
    rangeFaults (.ldBVx 0) (atIndex 0xFFD) = false ∧ rangeFaults (.ldBVx 0) (atIndex 0xFFE) = true := by decide

theorem witness_BlockRanges :
    rangeFaults (.ldMemVx 15) (atIndex 0x4F) = true ∧ rangeFaults (.ldMemVx 15) (atIndex 0x50) = false ∧
    rangeFaults (.ldMemVx 15) (atIndex 0xFF0) = false ∧ rangeFaults (.ldMemVx 15) (atIndex 0xFF1) = true ∧
    rangeFaults (.ldMemVx 0) (atIndex 0xFFF) = false ∧ rangeFaults (.ldMemVx 0) (atIndex 0x1000) = true ∧
    rangeFaults (.ldVxMem 15) (atIndex 0) = false ∧ rangeFaults (.ldVxMem 15) (atIndex 0xFF0) = false ∧
    rangeFaults (.ldVxMem 15) (atIndex 0xFF1) = true := by decide

theorem witness_EveryInstructionExecutes :
    wellFormed (.drwVxVyN 0 1 15) = true ∧ rangeFaults (.drwVxVyN 0 1 15) (atIndex 0xFF1) = false := by decide

theorem witness_LoadCopiesTheImage :
    State.reset.phase = .constructed ∧ (List.replicate 3584 (0x12#8)).length ≤ 3584 :=
  ⟨rfl, (List.length_replicate ..).le⟩

theorem witness_LoadOfTooLongImageFaults :
    State.reset.phase = .constructed ∧ Config.memSize - Config.loadBase < (List.replicate 3585 (0x12#8)).length :=
  ⟨rfl, by rw [List.length_replicate]; decide⟩

theorem witness_MovesOutsideTheirPhaseAreRefused :
    ({ loaded with phase := .faulted } : State).phase = .faulted ∧ State.reset.phase = .constructed ∧
    loaded.phase = .loaded := ⟨rfl, rfl, rfl⟩

theorem witness_TicksCountDownAndStopAtZero :
    State.reset.phase ≠ .faulted ∧ ({ loaded with dt := 1, st := 0xFF } : State).phase ≠ .faulted ∧
    fire .tick { loaded with dt := 1, st := 0xFF } = (.done, { loaded with dt := 0, st := 0xFE }) :=
  ⟨by decide, by decide, rfl⟩

theorem witness_PollLatchesPressedKeysLast :
    State.reset.phase ≠ .faulted ∧ loaded.phase ≠ .faulted ∧ ([2, 15, 0] : List Key).Nodup := by decide

/-- The three hypotheses of the statement, at a `step` and at a `tick`. -/
theorem witness_DelayTimerFallsBetweenWrites :
    ((∃ t, hostMove .step (placed 0x6AFF) = .next t) ∧
      ∀ w x, Event.step = .step → fetch (placed 0x6AFF) = .ok w → decode w ≠ .ok (.ldDTVx x)) ∧
    ((∃ t, hostMove .tick { loaded with dt := 1 } = .next t) ∧ Event.tick ≠ .construct ∧ Event.tick ≠ .step) :=
  ⟨⟨⟨_, rfl⟩, fun w x _ h => by
      have hw : w = 0x6AFF := (Except.ok.inj ((show fetch (placed 0x6AFF) = .ok 0x6AFF from rfl).symm.trans h)).symm
      subst hw
      rw [show decode 0x6AFF = .ok (.ldVxByte 0xA 0xFF) by decide]
      intro e
      cases e⟩, ⟨⟨_, rfl⟩, by decide, by decide⟩⟩

/-- SP at 0, at 1 and at 16; and at 15. -/
theorem witness_RetReturnsToTheNewestEntry :
    loaded.sp.val = 0 ∧ (withStack loaded 0x202 1).sp.val ≠ 0 ∧ (withStack loaded 0x202 16).sp.val ≠ 0 ∧
    (withStack loaded 0x202 16).sp.val - 1 < Config.stackDepth := by decide

theorem witness_CallPushesTheNextAddress :
    (withStack loaded 0x202 16).sp.val = 16 ∧ (withStack loaded 0x202 15).sp.val < 16 ∧ loaded.sp.val < 16 := by decide

theorem witness_RetUndoesCall : ∃ t, exec (.callAddr 0x300) (withStack loaded 0x202 15) = .next t := ⟨_, rfl⟩

theorem witness_PcAdvancePolicy :
    (∃ t, exec (.skpVx 1) loaded = .next t) ∧ (∃ f t, fire .step (placed 0x0000) = (.fault f, t)) ∧
    fetch (placed 0xF00A) = .ok 0xF00A ∧ decode 0xF00A = .ok (.ldVxK 0) ∧ (placed 0xF00A).edge = [] :=
  ⟨⟨_, rfl⟩, ⟨_, _, rfl⟩, rfl, by decide, rfl⟩

theorem witness_RndMasksOneDraw :
    ({ loaded with env := { Inputs.none with randomBytes := [0xA7, 0x5C] } } : State).env.randomBytes =
      0xA7 :: [0x5C] ∧ loaded.env.randomBytes = [] := ⟨rfl, rfl⟩

/-- The ends of the two ranges of I. -/
theorem witness_LdBStoresDecimalDigits :
    80 ≤ dataAddress (atIndex 0x50) ∧ dataAddress (atIndex 0xFFD) + 3 ≤ 4096 ∧ dataAddress (atIndex 0x4F) < 80 ∧
    4096 < dataAddress (atIndex 0xFFE) + 3 := by decide

theorem witness_BlockStoreWritesRegisters :
    80 ≤ dataAddress (atIndex 0x50) ∧ dataAddress (atIndex 0xFF0) + (15 : Reg).val + 1 ≤ 4096 ∧
    dataAddress (atIndex 0x4F) < 80 ∧ 4096 < dataAddress (atIndex 0xFF1) + (15 : Reg).val + 1 := by decide

theorem witness_BlockLoadReadsRegisters :
    dataAddress (atIndex 0xFF0) + (15 : Reg).val + 1 ≤ 4096 ∧ dataAddress (atIndex 0) + (0 : Reg).val + 1 ≤ 4096 ∧
    4096 < dataAddress (atIndex 0xFF1) + (15 : Reg).val + 1 := by decide

theorem witness_BlockLoadUndoesBlockStore : ∃ t, exec (.ldMemVx 15) (atIndex 0xFF0) = .next t := ⟨_, rfl⟩

theorem witness_MemReadChecksThenReads :
    1 ≤ 16 ∧ 16 ≤ 16 ∧ Config.memSize < 4081 + 16 ∧ 4080 + 16 ≤ Config.memSize := by decide

theorem witness_StoreIsSeenByTheNextFetch :
    ∃ t, exec (.ldMemVx 1) (atIndex 0x202) = .next t ∧ 1 ≤ (1 : Reg).val ∧ t.pc = (atIndex 0x202).i ∧
      (atIndex 0x202).i.toNat % 2 = 0 := ⟨_, rfl, by decide, rfl, rfl⟩

/-- The hypotheses at the last byte of memory; and a sprite, within memory too, that collides over one framebuffer and
does not over another. -/
theorem witness_DrwXorsTheWrappedSprite :
    (15 : Nibble) ≠ 0 ∧ dataAddress (atIndex 0xFF1) + (15 : Nibble).toNat ≤ 4096 ∧
    (1 : Nibble) ≠ 0 ∧ dataAddress (atIndex 0) + (1 : Nibble).toNat ≤ 4096 ∧
    SpriteCollides { atIndex 0 with fb := loaded.fb.set 0 0x80 } 0 1 1 ∧ ¬ SpriteCollides (atIndex 0) 0 1 1 :=
  ⟨by decide, by decide, by decide, by decide, ⟨0, 0, by decide, by decide⟩, fun ⟨px, py, h, _⟩ => by
    have clear : pixel loaded.fb px py = false := by
      simp [pixel, loaded, State.reset, Vector.getElem_replicate]
    exact Bool.false_ne_true (clear.symm.trans h)⟩

theorem witness_DrawingTwiceRestoresThePixels :
    ∃ t u, (0 : Reg) ≠ 15 ∧ (1 : Reg) ≠ 15 ∧ exec (.drwVxVyN 0 1 1) loaded = .next t ∧
      exec (.drwVxVyN 0 1 1) t = .next u := ⟨_, _, by decide, by decide, rfl, rfl⟩

theorem witness_KeySkipsTestTheHeldSet :
    (reg (withRegs loaded [(1, 15)]) 1).toNat = (15 : Key).val ∧ 16 ≤ (reg (withRegs loaded [(1, 16)]) 1).toNat := by
  decide

theorem witness_KeyWaitConsumesTheLatestKey :
    ({ loaded with edge := [4, 7, 1] } : State).edge = [4, 7] ++ [1] ∧
    ({ loaded with edge := [1] } : State).edge = [] ++ [1] := ⟨rfl, rfl⟩

theorem witness_KeyWaitRetriesUntilAKeyIsPending :
    (placed 0xFF0A).phase = .loaded ∧ fetch (placed 0xFF0A) = .ok 0xFF0A ∧ decode 0xFF0A = .ok (.ldVxK 15) ∧
    (placed 0xFF0A).edge = [] ∧ fire .step (placed 0xFF0A) = (.retry, placed 0xFF0A) :=
  ⟨rfl, rfl, by decide, rfl, rfl⟩

theorem witness_EveryInstructionKeepsItsFrame :
    (∃ t, exec (.ldBVx 3) (atIndex 0xFFD) = .next t) ∧ (∃ t, exec (.addVxVy 15 1) loaded = .next t) :=
  ⟨⟨_, rfl⟩, ⟨_, rfl⟩⟩

/-- An instruction that is neither CALL nor RET completes, one faults, and a write by the memory primitive succeeds. -/
theorem witness_StackIsReachedByCallAndRetAlone :
    Instr.ldMemVx 0 ≠ .ret ∧ (∀ nnn, Instr.ldMemVx 0 ≠ .callAddr nnn) ∧
    (∃ t, exec (.ldMemVx 0) (atIndex 0x300) = .next t) ∧ (∃ f, exec (.ldMemVx 0) loaded = .fault f) ∧
    (∃ t, memWrite loaded 0x300 [1, 2] = .ok t) :=
  ⟨by decide, nofun, ⟨_, rfl⟩, ⟨_, rfl⟩, ⟨_, rfl⟩⟩

theorem witness_FramebufferIsReadThroughCollisionAlone :
    (∃ t, exec (.drwVxVyN 0 1 1) loaded = .next t) ∧ (∃ f, exec (.drwVxVyN 0 1 1) (atIndex 0x1000) = .fault f) ∧
    Instr.ldMemVx 0 ≠ .cls ∧ (∀ x y n, Instr.ldMemVx 0 ≠ .drwVxVyN x y n) :=
  ⟨⟨_, rfl⟩, ⟨_, rfl⟩, by decide, nofun⟩

theorem witness_NoInstructionReadsTheSoundTimer :
    (∃ t, exec (.ldSTVx 2) loaded = .next t) ∧ (∃ t, exec (.ldVxDT 2) loaded = .next t) ∧
    (∃ f, exec .ret loaded = .fault f) ∧ loaded.phase ≠ .faulted :=
  ⟨⟨_, rfl⟩, ⟨_, rfl⟩, ⟨_, rfl⟩, by decide⟩

theorem witness_HeldSetIsReadByKeySkipsAlone :
    (∃ t, exec (.ldVxK 2) loaded = .next t) ∧ (∃ f, exec .ret loaded = .fault f) ∧ loaded.phase ≠ .faulted ∧
    (∀ x, Instr.ldVxK 2 ≠ .skpVx x) ∧ (∀ x, Instr.ldVxK 2 ≠ .sknpVx x) ∧
    (∃ t, hostMove .tick loaded = .next t) ∧ Event.tick ≠ .construct ∧
    (∀ held pressed, Event.tick ≠ .pollInput held pressed) :=
  ⟨⟨_, rfl⟩, ⟨_, rfl⟩, by decide, nofun, nofun, ⟨_, rfl⟩, by decide, nofun⟩

/-- A store at the bottom of the writable range: memory in its form and a step that completes. -/
theorem witness_StepKeepsMemoryForm :
    memWf ({ placed 0xF055 with i := 0x50 } : State).mem = true ∧
    ∃ t, step ({ placed 0xF055 with i := 0x50 } : State) = .next t := ⟨by decide, ⟨_, rfl⟩⟩

theorem witness_StepKeepsTheFont : FontIntact { loaded with pc := 0x42 } ∧ ∃ t, step { loaded with pc := 0x42 } = .next t :=
  ⟨fun _ _ => rfl, ⟨_, rfl⟩⟩

theorem witness_StepKeepsPendingKeysDistinct :
    EdgeDistinct ({ placed 0xF30A with edge := [4, 7, 1] } : State) ∧
    ∃ t, step ({ placed 0xF30A with edge := [4, 7, 1] } : State) = .next t :=
  ⟨by unfold EdgeDistinct; decide, ⟨_, rfl⟩⟩

theorem witness_StepKeepsPcAndReturnAddresses :
    PcReachable (placed 0x2300) ∧ ReturnsAligned (placed 0x2300) ∧ ∃ t, step (placed 0x2300) = .next t :=
  ⟨by unfold PcReachable; decide, fun j _ h => absurd h (Nat.not_lt_zero j), ⟨_, rfl⟩⟩

end Sys2Proof.Tests
end

section
/-! SUPPORT. What a conditional instruction that completes did, read off from the answer: the inverses of the equations
of `exec` for RET, CALL, DRW, the memory transfers and the key wait. -/

namespace Sys2Proof.Machine

/-- A RET that completes had a valid entry, and jumps to the newest. -/
theorem exec_ret_inv {s t : State} (h : exec .ret s = .next t) :
    ∃ (_ : s.sp.val ≠ 0) (below : s.sp.val - 1 < Config.stackDepth),
      t = setPc { s with sp := ⟨s.sp.val - 1, Nat.lt_succ_of_lt below⟩ } s.stack[s.sp.val - 1] := by
  by_cases empty : s.sp.val = 0
  · rw [exec_ret_empty s empty] at h
    cases h
  · obtain ⟨below, e⟩ := exec_ret s empty
    rw [e] at h
    cases h
    exact ⟨empty, below, rfl⟩

/-- A CALL that completes had a free slot, and pushes the next address. -/
theorem exec_callAddr_inv {s t : State} {nnn : Addr12} (h : exec (.callAddr nnn) s = .next t) :
    ∃ room : s.sp.val < Config.stackDepth,
      t = setPc { s with stack := s.stack.set s.sp.val (s.pc + 2),
                         sp := ⟨s.sp.val + 1, Nat.succ_lt_succ room⟩ } (nnn.setWidth 16) := by
  by_cases room : s.sp.val < Config.stackDepth
  · rw [exec_callAddr s nnn room] at h
    cases h
    exact ⟨room, rfl⟩
  · have := s.sp.isLt
    rw [exec_callAddr_full s nnn (by omega)] at h
    cases h

/-- A store at I that completes was whole and clear of the font. -/
theorem storeAtIndex_inv {s t : State} {bytes : List Byte} (h : storeAtIndex s bytes = .next t) :
    dataAddress s + bytes.length ≤ Config.memSize ∧ Config.fontEnd ≤ dataAddress s ∧
      t = advance { s with mem := memPutBytes s.mem (dataAddress s) bytes } := by
  by_cases out : Config.memSize < dataAddress s + bytes.length ∨ dataAddress s < Config.fontEnd
  · rw [storeAtIndex_fault s bytes out] at h
    cases h
  · have hi : dataAddress s + bytes.length ≤ Config.memSize := by omega
    have lo : Config.fontEnd ≤ dataAddress s := by omega
    rw [storeAtIndex_ok s bytes hi lo] at h
    cases h
    exact ⟨hi, lo, rfl⟩

/-- A block load that completes lay inside memory. -/
theorem exec_ldVxMem_inv {s t : State} {x : Reg} (h : exec (.ldVxMem x) s = .next t) :
    dataAddress s + (x.val + 1) ≤ Config.memSize ∧
      t = advance (setRegsFrom s 0 (memBytes s.mem (dataAddress s) (x.val + 1))) := by
  by_cases inside : dataAddress s + (x.val + 1) ≤ Config.memSize
  · rw [exec_ldVxMem s x inside] at h
    cases h
    exact ⟨inside, rfl⟩
  · rw [exec_ldVxMem_fault s x (by omega)] at h
    cases h

/-- DRW without rows, which no word decodes to, is the `DecodeError` of its word (log 8). -/
theorem exec_drwVxVyN_no_rows (s : State) (x y : Reg) :
    exec (.drwVxVyN x y 0#4) s = .fault (.decodeError s.pc (encode (.drwVxVyN x y 0#4))) := rfl

/-- A DRW that completes has rows, and its sprite lay inside memory. -/
theorem exec_drwVxVyN_inv {s t : State} {x y : Reg} {n : Nibble} (h : exec (.drwVxVyN x y n) s = .next t) :
    n ≠ 0#4 ∧ dataAddress s + n.toNat ≤ Config.memSize ∧
      t = advance (setReg
        { s with fb := (drawSprite s x y (memBytes s.mem (dataAddress s) n.toNat)).fb } .flag
        (collisionFlag (drawSprite s x y (memBytes s.mem (dataAddress s) n.toNat)).coll)) := by
  by_cases hn : n = 0#4
  · subst hn
    rw [exec_drwVxVyN_no_rows] at h
    cases h
  · by_cases inside : dataAddress s + n.toNat ≤ Config.memSize
    · rw [exec_drwVxVyN s x y n hn inside] at h
      cases h
      exact ⟨hn, inside, rfl⟩
    · rw [exec_drwVxVyN_fault s x y n hn (by omega)] at h
      cases h

/-- A key wait that completes either found no key and changed nothing, or consumed the key latched last. -/
theorem exec_ldVxK_inv {s t : State} {x : Reg} (h : exec (.ldVxK x) s = .next t) :
    (s.edge = [] ∧ t = s) ∨
    ∃ older k, s.edge = older ++ [k] ∧ t = advance (setReg { s with edge := older } x (BitVec.ofNat 8 k.val)) := by
  rcases List.eq_nil_or_concat' s.edge with noKey | ⟨older, k, pending⟩
  · rw [exec_ldVxK_waits s x noKey] at h
    cases h
    exact .inl ⟨noKey, rfl⟩
  · rw [exec_ldVxK s x older k pending] at h
    cases h
    exact .inr ⟨older, k, pending, rfl⟩

/-- What an event that is carried out did, in which phase (the table of 49_host_interface.md R171). -/
theorem hostMove_next {e : Event} {s t : State} (h : hostMove e s = .next t) :
    (e = .step ∧ ∃ w i, s.phase = .loaded ∧ fetch s = .ok w ∧ decode w = .ok i ∧ exec i s = .next t) ∨
    (e = .tick ∧ s.phase ≠ .faulted ∧ t = tick s) ∨
    (∃ held pressed, e = .pollInput held pressed ∧ s.phase ≠ .faulted ∧ t = pollInput held pressed s) ∨
    (∃ bytes, e = .load bytes ∧ s.phase = .constructed ∧ bytes.length ≤ Config.memSize - Config.loadBase ∧
      t = { s with mem := memPutBytes s.mem Config.loadBase bytes, phase := .loaded }) ∨
    (e = .construct ∧ t = construct s) ∨
    ((e = .readFramebuffer ∨ e = .readTimers) ∧ t = s) := by
  cases e with
  | step => exact .inl ⟨rfl, interpret_next h⟩
  | tick =>
    simp only [hostMove] at h
    split at h
    · cases h
    · next live => cases h; exact .inr (.inl ⟨rfl, live, rfl⟩)
  | pollInput held pressed =>
    simp only [hostMove] at h
    split at h
    · cases h
    · next live => cases h; exact .inr (.inr (.inl ⟨held, pressed, rfl, live, rfl⟩))
  | load bytes =>
    simp only [hostMove] at h
    split at h
    · next fresh =>
      unfold loadImage at h
      split at h
      · cases h
      · next fits => cases h; exact .inr (.inr (.inr (.inl ⟨bytes, rfl, fresh, by omega, rfl⟩)))
    · cases h
    · cases h
  | construct => cases h; exact .inr (.inr (.inr (.inr (.inl ⟨rfl, rfl⟩))))
  | readFramebuffer => cases h; exact .inr (.inr (.inr (.inr (.inr ⟨.inl rfl, rfl⟩))))
  | readTimers => cases h; exact .inr (.inr (.inr (.inr (.inr ⟨.inr rfl, rfl⟩))))

/-- An event that answers a fault leaves the faulted state (60_exceptions.md R205). -/
theorem fire_fault {e : Event} {s t : State} {f : Fault} (h : fire e s = (.fault f, t)) : t = s.enterFault := by
  unfold fire at h
  split at h
  · next u hu =>
    have : replyOf e s ≠ .fault f := by
      cases e with
      | step => simp only [replyOf]; split <;> nofun
      | _ => nofun
    exact absurd (congrArg Prod.fst h) this
  · cases h; rfl
  · cases h

end Sys2Proof.Machine
end

section
/-! PROOFS. The frame of every instruction: each named update keeps a frame whose footprint names what it writes, and an
instruction is a few of them in a row. -/

namespace Sys2Proof

open Sys2Proof.Machine

/-! ### Each update inside a footprint -/

theorem Frame.refl (f : Footprint) (s : State) : Frame f s s where
  regs _ _ := rfl
  index _ := rfl
  stack _ := ⟨rfl, rfl⟩
  dt _ := rfl
  st _ := rfl
  mem _ _ := rfl
  fb _ := rfl
  held := rfl
  edge _ := rfl
  phase := rfl
  agenda := rfl
  random _ := rfl

section
variable {f : Footprint} {s t : State}

theorem Frame.setPc (h : Frame f s t) (w : Word) : Frame f s (setPc t w) := { h with }

theorem Frame.advance (h : Frame f s t) : Frame f s (advance t) := h.setPc _

theorem Frame.skipWhen (h : Frame f s t) (c : Bool) : Frame f s (skipWhen c t) := h.setPc _

theorem Frame.setReg (h : Frame f s t) {x : Reg} (hx : x ∈ f.regs) (b : Byte) : Frame f s (setReg t x b) :=
  { h with
    regs := fun r hr => by
      have other : r ≠ x := fun e => hr (e ▸ hx)
      rw [reg_setReg_other t b other, h.regs r hr] }

theorem Frame.setRegsFrom (bs : List Byte) :
    ∀ {t : State} {k : Nat}, Frame f s t → (∀ r : Reg, k ≤ r.val → r.val < k + bs.length → r ∈ f.regs) →
      Frame f s (setRegsFrom t k bs) := by
  induction bs with
  | nil => intro t k h _; exact h
  | cons b bs ih =>
    intro t k h block
    simp only [List.length_cons] at block
    rw [Machine.setRegsFrom]
    refine ih ?_ fun r lo hi => block r (by omega) (by omega)
    split
    · next hk => exact h.setReg (block ⟨k, hk⟩ (Nat.le_refl k) (Nat.lt_add_of_pos_right (by omega))) b
    · exact h

theorem Frame.setIndex (h : Frame f s t) (hf : f.index = true) (w : Word) : Frame f s (setIndex t w) :=
  { h with index := fun no => Bool.noConfusion (hf.symm.trans no) }

theorem Frame.setStack (h : Frame f s t) (hf : f.stack = true) (stack : Vector Word Config.stackDepth)
    (sp : Fin (Config.stackDepth + 1)) : Frame f s { t with stack := stack, sp := sp } :=
  { h with stack := fun no => Bool.noConfusion (hf.symm.trans no) }

theorem Frame.setDt (h : Frame f s t) (hf : f.dt = true) (b : Byte) : Frame f s { t with dt := b } :=
  { h with dt := fun no => Bool.noConfusion (hf.symm.trans no) }

theorem Frame.setSt (h : Frame f s t) (hf : f.st = true) (b : Byte) : Frame f s { t with st := b } :=
  { h with st := fun no => Bool.noConfusion (hf.symm.trans no) }

theorem Frame.setFb (h : Frame f s t) (hf : f.fb = true) (fb : Framebuffer) : Frame f s { t with fb := fb } :=
  { h with fb := fun no => Bool.noConfusion (hf.symm.trans no) }

theorem Frame.setEdge (h : Frame f s t) (hf : f.edge = true) (edge : List Key) : Frame f s { t with edge := edge } :=
  { h with edge := fun no => Bool.noConfusion (hf.symm.trans no) }

theorem Frame.consumeRandom (h : Frame f s t) (hf : f.random = true) : Frame f s (consumeRandom t) :=
  { h with random := fun no => Bool.noConfusion (hf.symm.trans no) }

theorem Frame.memPutBytes (h : Frame f s t) {a n : Nat} (hc : f.cells = runOfCells a n) {bs : List Byte}
    (len : bs.length = n) : Frame f s { t with mem := memPutBytes t.mem a bs } :=
  { h with
    mem := fun k hk => by
      have outside : k < a ∨ a + bs.length ≤ k := by
        rw [hc, runOfCells, List.mem_range'_1] at hk
        omega
      exact (memByte_memPutBytes_outside bs t.mem a k outside).trans (h.mem k hk) }

end

theorem mem_blockRegs {x r : Reg} : r ∈ blockRegs x ↔ r.val ≤ x.val := by simp [blockRegs]

/-! ### The instructions -/

/-- Every completed instruction keeps its frame. -/
theorem exec_frame {i : Instr} {s t : State} (h : exec i s = .next t) : Frame (footprint i s) s t := by
  have start := Frame.refl (footprint i s) s
  cases i with
  | cls => cases h; exact (start.setFb rfl _).advance
  | ret => obtain ⟨_, _, rfl⟩ := exec_ret_inv h; exact (start.setStack rfl _ _).setPc _
  | callAddr nnn => obtain ⟨_, rfl⟩ := exec_callAddr_inv h; exact (start.setStack rfl _ _).setPc _
  | jpAddr nnn | jpV0Addr nnn => cases h; exact start.setPc _
  | seVxByte x kk | seVxVy x y | sneVxByte x kk | sneVxVy x y | skpVx x | sknpVx x =>
    cases h; exact start.skipWhen _
  | ldVxByte x kk | ldVxVy x y | addVxByte x kk | orVxVy x y | andVxVy x y | xorVxVy x y | ldVxDT x =>
    cases h; exact (start.setReg (List.mem_singleton_self x) _).advance
  | addVxVy x y =>
    have hx : x ∈ [x, Reg.flag] := by simp
    have hflag : Reg.flag ∈ [x, Reg.flag] := by simp
    cases h; exact ((start.setReg hx _).setReg hflag _).advance
  | subVxVy x y | subnVxVy x y | shrVx x | shlVx x =>
    have hx : x ∈ [x, Reg.flag] := by simp
    have hflag : Reg.flag ∈ [x, Reg.flag] := by simp
    cases h; exact ((start.setReg hflag _).setReg hx _).advance
  | rndVxByte x kk =>
    cases h; exact ((start.consumeRandom rfl).setReg (List.mem_singleton_self x) _).advance
  | ldIAddr nnn | addIVx x | ldFVx x => cases h; exact (start.setIndex rfl _).advance
  | drwVxVyN x y n =>
    obtain ⟨_, _, rfl⟩ := exec_drwVxVyN_inv h
    exact ((start.setFb rfl _).setReg (List.mem_singleton_self _) _).advance
  | ldDTVx x => cases h; exact (start.setDt rfl _).advance
  | ldSTVx x => cases h; exact (start.setSt rfl _).advance
  | ldBVx x =>
    obtain ⟨_, _, rfl⟩ := storeAtIndex_inv h
    exact (start.memPutBytes rfl (decimalDigits_length _)).advance
  | ldMemVx x =>
    obtain ⟨_, _, rfl⟩ := storeAtIndex_inv h
    exact (start.memPutBytes rfl (regsUpTo_length s x)).advance
  | ldVxMem x =>
    obtain ⟨_, rfl⟩ := exec_ldVxMem_inv h
    refine (Frame.setRegsFrom _ start fun r _ hr => mem_blockRegs.mpr ?_).advance
    rw [memBytes_length] at hr
    omega
  | ldVxK x =>
    rcases exec_ldVxK_inv h with ⟨_, rfl⟩ | ⟨_, _, _, rfl⟩
    · exact start
    · exact ((start.setEdge rfl _).setReg (List.mem_singleton_self x) _).advance

/-- Settles O51: the frame of every instruction, as the updates it consists of keep it. -/
theorem everyInstructionKeepsItsFrame : Obligations.EveryInstructionKeepsItsFrame :=
  fun _ _ _ => exec_frame

end Sys2Proof
end

section
/-! PROOFS. Where an instruction leaves pc, and that a fault leaves pc alone. -/

namespace Sys2Proof

open Sys2Proof.Machine

/-- The target of JP V0 as the sum of natural numbers that its rule states (40_control_flow.md R108). -/
theorem offsetTarget_eq_ofNat (s : State) (nnn : Addr12) :
    offsetTarget s nnn = BitVec.ofNat 16 ((reg s 0).toNat + nnn.toNat) := by
  apply BitVec.eq_of_toNat_eq
  simp [offsetTarget, BitVec.toNat_add, BitVec.toNat_setWidth]

/-- The PC-advance policy of 10_state.md R25. -/
theorem exec_pc {i : Instr} {s t : State} (h : exec i s = .next t) : t.pc = pcAfter i s := by
  cases i with
  | ret => obtain ⟨_, below, rfl⟩ := exec_ret_inv h; simp [pcAfter, below]
  | callAddr nnn => obtain ⟨_, rfl⟩ := exec_callAddr_inv h; rfl
  | jpV0Addr nnn => cases h; exact offsetTarget_eq_ofNat s nnn
  | seVxByte x kk | seVxVy x y | sneVxByte x kk | sneVxVy x y | skpVx x => cases h; simp [pcAfter]
  | sknpVx x => cases h; cases held : keyHeld s (reg s x) <;> simp [pcAfter, held]
  | drwVxVyN x y n => obtain ⟨_, _, rfl⟩ := exec_drwVxVyN_inv h; rfl
  | ldBVx x | ldMemVx x => obtain ⟨_, _, rfl⟩ := storeAtIndex_inv h; rfl
  | ldVxMem x =>
    obtain ⟨_, rfl⟩ := exec_ldVxMem_inv h
    obtain ⟨v, hv⟩ := setRegsFrom_frame (memBytes s.mem (dataAddress s) (x.val + 1)) s 0
    rw [hv]
    rfl
  | ldVxK x =>
    rcases exec_ldVxK_inv h with ⟨noKey, rfl⟩ | ⟨older, k, pending, rfl⟩
    · simp [pcAfter, noKey]
    · simp [pcAfter, pending]
  | _ => cases h; rfl

/-- A step of the key wait with no key pending is a retry that changes nothing (44_timers_and_keys.md R165). -/
theorem fire_step_retry {s : State} {w : Word} {x : Reg} (hp : s.phase = .loaded) (hf : fetch s = .ok w)
    (hd : decode w = .ok (.ldVxK x)) (noKey : s.edge = []) : fire .step s = (.retry, s) := by
  have move : hostMove .step s = .next s := (interpret_decoded hp hf hd).trans (exec_ldVxK_waits s x noKey)
  have again : retries s = true := by simp [retries, hf, hd, noKey]
  simp [fire, move, replyOf, again]

/-- Settles O27: the policy instruction by instruction, the retry, and the pc that a fault keeps. -/
theorem pcAdvancePolicy : Obligations.PcAdvancePolicy := by
  refine ⟨fun _ _ _ => exec_pc, fun s w x hp hf hd noKey => ?_, fun s t f h => ?_⟩
  · exact ⟨s, fire_step_retry hp hf hd noKey, rfl⟩
  · rw [fire_fault h, enterFault_pc]

end Sys2Proof
end

section
/-! PROOFS. The two invariants of the state: EDGE free of repeats, and pc and the return addresses in range. -/

namespace Sys2Proof

open Sys2Proof.Machine

/-! ### EDGE -/

theorem nodup_latch {edge : List Key} (h : edge.Nodup) (k : Key) : (latch edge k).Nodup := by
  exact List.nodup_append.mpr ⟨h.filter _, by simp, by simp⟩

/-- However many keys a poll latches, and whichever, EDGE stays free of repeats (49_host_interface.md R180). -/
theorem nodup_foldl_latch (pressed : List Key) :
    ∀ {edge : List Key}, edge.Nodup → (pressed.foldl latch edge).Nodup := by
  induction pressed with
  | nil => intro edge h; exact h
  | cons k pressed ih => intro edge h; exact ih (nodup_latch h k)

/-- No instruction adds a key to EDGE or reorders it. -/
theorem exec_edge_sublist {i : Instr} {s t : State} (h : exec i s = .next t) : t.edge.Sublist s.edge := by
  cases i with
  | ldVxK x =>
    rcases exec_ldVxK_inv h with ⟨_, rfl⟩ | ⟨older, k, pending, rfl⟩
    · exact List.Sublist.refl _
    · simp [pending]
  | _ => rw [(exec_frame h).edge rfl]

/-- Every event keeps EDGE free of repeats. -/
theorem hostMove_keeps_edgeDistinct {e : Event} {s t : State} (hs : EdgeDistinct s) (h : hostMove e s = .next t) :
    EdgeDistinct t := by
  rcases hostMove_next h with ⟨_, _, i, _, _, _, hx⟩ | ⟨_, _, rfl⟩ | ⟨held, pressed, _, _, rfl⟩ |
    ⟨bytes, _, _, _, rfl⟩ | ⟨_, rfl⟩ | ⟨_, rfl⟩
  · exact hs.sublist (exec_edge_sublist hx)
  · exact hs
  · exact nodup_foldl_latch pressed hs
  · exact hs
  · exact List.nodup_nil
  · exact hs

/-- Settles O58: the next event keeps EDGE free of repeats, and taking it off the agenda does not touch EDGE. -/
theorem stepKeepsPendingKeysDistinct : Obligations.StepKeepsPendingKeysDistinct :=
  fun s _ hs h => hostMove_keeps_edgeDistinct (s := takeEvent s) hs h

/-! ### pc and the return addresses -/

/-- From a pc that can be fetched at, with its return addresses in range, every instruction that can complete leaves a
pc at most 0x10FE: the largest is a JP V0's 0xFF + 0xFFF (10_state.md R26). -/
theorem pcAfter_le {i : Instr} {s : State} (hpc : s.pc.toNat + 2 ≤ Config.memSize) (hr : ReturnsAligned s)
    (nonempty : i = .ret → s.sp.val ≠ 0) : (pcAfter i s).toNat ≤ 0x10FE := by
  have size : Config.memSize = 4096 := rfl
  have two : (s.pc + 2).toNat ≤ 0x10FE := by bv_omega
  have four : (s.pc + 4).toNat ≤ 0x10FE := by bv_omega
  cases i with
  | jpAddr nnn | callAddr nnn =>
    have := nnn.isLt
    simp only [pcAfter, BitVec.toNat_setWidth]
    omega
  | jpV0Addr nnn =>
    have := nnn.isLt
    have := (reg s 0).isLt
    simp only [pcAfter, BitVec.toNat_ofNat]
    omega
  | ret =>
    have ne := nonempty rfl
    have := s.sp.isLt
    have below : s.sp.val - 1 < Config.stackDepth := by omega
    obtain ⟨_, le⟩ := hr (s.sp.val - 1) below (by omega)
    have target : pcAfter .ret s = s.stack[s.sp.val - 1] := by simp [pcAfter, below]
    rw [target]
    omega
  | seVxByte x kk | seVxVy x y | sneVxByte x kk | sneVxVy x y | skpVx x | sknpVx x =>
    simp only [pcAfter]; split <;> assumption
  | ldVxK x =>
    simp only [pcAfter]
    split
    · omega
    · exact two
  | _ => exact two

/-- A push keeps the return addresses in range when the pushed one is. -/
theorem returnsAligned_push {s : State} (hr : ReturnsAligned s) (room : s.sp.val < Config.stackDepth) {w : Word}
    (even : w.toNat % 2 = 0) (le : w.toNat ≤ Config.memSize) :
    ReturnsAligned { s with stack := s.stack.set s.sp.val w, sp := ⟨s.sp.val + 1, Nat.succ_lt_succ room⟩ } := by
  intro j hj valid
  have valid : j < s.sp.val + 1 := valid
  simp only [Vector.getElem_set]
  split
  · exact ⟨even, le⟩
  · exact hr j hj (by omega)

/-- With fewer valid entries the return addresses stay in range. -/
theorem ReturnsAligned.of_sp_le {s t : State} (hr : ReturnsAligned s) (stack : t.stack = s.stack)
    (sp : t.sp.val ≤ s.sp.val) : ReturnsAligned t := by
  intro j hj valid
  simp only [stack]
  exact hr j hj (by omega)

/-- An instruction executed at a pc that can be fetched at keeps the return addresses in range. -/
theorem exec_keeps_returnsAligned {i : Instr} {s t : State} (even : s.pc.toNat % 2 = 0)
    (hpc : s.pc.toNat + 2 ≤ Config.memSize) (hr : ReturnsAligned s) (h : exec i s = .next t) : ReturnsAligned t := by
  cases i with
  | callAddr nnn =>
    obtain ⟨room, rfl⟩ := exec_callAddr_inv h
    have size : Config.memSize = 4096 := rfl
    have next : (s.pc + 2).toNat = s.pc.toNat + 2 := by bv_omega
    exact returnsAligned_push hr room (by omega) (by omega)
  | ret =>
    obtain ⟨_, _, rfl⟩ := exec_ret_inv h
    exact hr.of_sp_le rfl (Nat.sub_le _ _)
  | _ =>
    obtain ⟨stack, sp⟩ := (exec_frame h).stack rfl
    exact hr.of_sp_le stack (by rw [sp])

theorem construct_pcReachable (s : State) : PcReachable (construct s) := by
  have pc : (construct s).pc = 0x200 := rfl
  unfold PcReachable
  rw [pc]
  decide

/-- After a reset, with whatever inputs wait, there is no return address. -/
theorem construct_returnsAligned (s : State) : ReturnsAligned (construct s) :=
  fun j _ valid => absurd valid (Nat.not_lt_zero j)

/-- Every event keeps pc and the return addresses in range. -/
theorem hostMove_keeps_pc_and_returns {e : Event} {s t : State} (hp : PcReachable s) (hr : ReturnsAligned s)
    (h : hostMove e s = .next t) : PcReachable t ∧ ReturnsAligned t := by
  rcases hostMove_next h with ⟨_, w, i, _, hf, _, hx⟩ | ⟨_, _, rfl⟩ | ⟨held, pressed, _, _, rfl⟩ |
    ⟨bytes, _, _, _, rfl⟩ | ⟨_, rfl⟩ | ⟨_, rfl⟩
  · obtain ⟨even, hpc, _⟩ := (fetch_ok_iff s w).mp hf
    refine ⟨?_, exec_keeps_returnsAligned even hpc hr hx⟩
    unfold PcReachable
    rw [exec_pc hx]
    refine pcAfter_le hpc hr ?_
    rintro rfl
    exact (exec_ret_inv hx).1
  · exact ⟨hp, hr⟩
  · exact ⟨hp, hr⟩
  · exact ⟨hp, hr⟩
  · exact ⟨construct_pcReachable s, construct_returnsAligned s⟩
  · exact ⟨hp, hr⟩

/-- Settles O59: the next event keeps both, and taking it off the agenda touches neither. -/
theorem stepKeepsPcAndReturnAddresses : Obligations.StepKeepsPcAndReturnAddresses :=
  fun s _ hp hr h => hostMove_keeps_pc_and_returns (s := takeEvent s) hp hr h

end Sys2Proof
end

section
/-! PROOFS. What no instruction reads. STACK, SP, ST, FB and HELD are each named by a few instructions only. An
`Override` replaces them; an instruction that names none of the replaced fields does the same on the overridden state.
The four statements use this one fact (`exec_apply`); the instructions it leaves out are treated by hand. -/

namespace Sys2Proof.Machine

/-- A change of the fields that few instructions read, each field from itself; `id` where it stays. -/
structure Override where
  stack : Vector Word Config.stackDepth → Vector Word Config.stackDepth := id
  sp : Fin (Config.stackDepth + 1) → Fin (Config.stackDepth + 1) := id
  st : Byte → Byte := id
  fb : Framebuffer → Framebuffer := id
  held : KeySet → KeySet := id

/-- The state with the fields changed. -/
def Override.apply (o : Override) (s : State) : State :=
  { s with stack := o.stack s.stack, sp := o.sp s.sp, st := o.st s.st, fb := o.fb s.fb, held := o.held s.held }

/-- The fields that the instruction reads or writes stay. -/
def Override.Spares (o : Override) : Instr → Prop
  | .ret | .callAddr _ => o.stack = id ∧ o.sp = id
  | .cls | .drwVxVyN _ _ _ => o.fb = id
  | .skpVx _ | .sknpVx _ => o.held = id
  | .ldSTVx _ => o.st = id
  | _ => True

/-- An answer with its next state changed; a fault or refusal stays. -/
def mapNext (g : State → State) : Answer → Answer
  | .next t => .next (g t)
  | .fault f => .fault f
  | .refused r => .refused r

section
variable (o : Override) (s : State)

@[simp] theorem fetch_apply : fetch (o.apply s) = fetch s := rfl

@[simp] theorem memRead_apply (a n : Nat) : memRead (o.apply s) a n = memRead s a n := rfl

@[simp] theorem rangeFault_apply : rangeFault (o.apply s) = rangeFault s := rfl

@[simp] theorem dataAddress_apply : dataAddress (o.apply s) = dataAddress s := rfl

theorem setRegsFrom_apply (bs : List Byte) :
    ∀ (s : State) (k : Nat), setRegsFrom (o.apply s) k bs = o.apply (setRegsFrom s k bs) := by
  induction bs with
  | nil => intros; rfl
  | cons b bs ih =>
    intro s k
    rw [setRegsFrom, setRegsFrom, ← ih]
    split <;> rfl

theorem storeAtIndex_apply (bytes : List Byte) :
    storeAtIndex (o.apply s) bytes = mapNext o.apply (storeAtIndex s bytes) := by
  by_cases out : Config.memSize < dataAddress s + bytes.length ∨ dataAddress s < Config.fontEnd
  · rw [storeAtIndex_fault s bytes out, storeAtIndex_fault (o.apply s) bytes out]
    rfl
  · have hi : dataAddress s + bytes.length ≤ Config.memSize := by omega
    have lo : Config.fontEnd ≤ dataAddress s := by omega
    rw [storeAtIndex_ok s bytes hi lo, storeAtIndex_ok (o.apply s) bytes hi lo]
    rfl

theorem exec_ldVxMem_apply (x : Reg) : exec (.ldVxMem x) (o.apply s) = mapNext o.apply (exec (.ldVxMem x) s) := by
  by_cases inside : dataAddress s + (x.val + 1) ≤ Config.memSize
  · rw [exec_ldVxMem s x inside, exec_ldVxMem (o.apply s) x inside]
    exact congrArg (fun t => Host.Outcome.next (advance t)) (setRegsFrom_apply o _ s 0)
  · rw [exec_ldVxMem_fault s x (by omega), exec_ldVxMem_fault (o.apply s) x (by rw [dataAddress_apply]; omega)]
    rfl

theorem exec_ldVxK_apply (x : Reg) : exec (.ldVxK x) (o.apply s) = mapNext o.apply (exec (.ldVxK x) s) := by
  rcases List.eq_nil_or_concat' s.edge with noKey | ⟨older, k, pending⟩
  · rw [exec_ldVxK_waits s x noKey, exec_ldVxK_waits (o.apply s) x noKey]
    rfl
  · rw [exec_ldVxK s x older k pending, exec_ldVxK (o.apply s) x older k pending]
    rfl

theorem exec_ret_apply (hstack : o.stack = id) (hsp : o.sp = id) :
    exec .ret (o.apply s) = mapNext o.apply (exec .ret s) := by
  obtain ⟨_, _, st, fb, held⟩ := o
  obtain rfl : _ = id := hstack
  obtain rfl : _ = id := hsp
  by_cases empty : s.sp.val = 0
  · rw [exec_ret_empty s empty, exec_ret_empty _ (by exact empty)]
    rfl
  · obtain ⟨_, e⟩ := exec_ret s empty
    obtain ⟨_, e'⟩ := exec_ret (Override.apply ⟨id, id, st, fb, held⟩ s) empty
    rw [e, e']
    rfl

theorem exec_callAddr_apply (nnn : Addr12) (hstack : o.stack = id) (hsp : o.sp = id) :
    exec (.callAddr nnn) (o.apply s) = mapNext o.apply (exec (.callAddr nnn) s) := by
  obtain ⟨_, _, st, fb, held⟩ := o
  obtain rfl : _ = id := hstack
  obtain rfl : _ = id := hsp
  by_cases room : s.sp.val < Config.stackDepth
  · rw [exec_callAddr s nnn room, exec_callAddr _ nnn (by exact room)]
    rfl
  · have full : s.sp.val = Config.stackDepth := by have := s.sp.isLt; omega
    rw [exec_callAddr_full s nnn full, exec_callAddr_full _ nnn (by exact full)]
    rfl

theorem exec_drwVxVyN_apply (x y : Reg) (n : Nibble) (hfb : o.fb = id) :
    exec (.drwVxVyN x y n) (o.apply s) = mapNext o.apply (exec (.drwVxVyN x y n) s) := by
  obtain ⟨stack, sp, st, _, held⟩ := o
  obtain rfl : _ = id := hfb
  by_cases hn : n = 0#4
  · subst hn; rfl
  · by_cases inside : dataAddress s + n.toNat ≤ Config.memSize
    · rw [exec_drwVxVyN s x y n hn inside, exec_drwVxVyN _ x y n hn (by exact inside)]
      rfl
    · have outside : Config.memSize < dataAddress s + n.toNat := by omega
      rw [exec_drwVxVyN_fault s x y n hn outside, exec_drwVxVyN_fault _ x y n hn (by exact outside)]
      rfl

end

/-- An instruction that reads and writes none of the changed fields commutes with the change. -/
theorem exec_apply {o : Override} {i : Instr} (spared : o.Spares i) (s : State) :
    exec i (o.apply s) = mapNext o.apply (exec i s) := by
  cases i with
  | cls | ldSTVx x | skpVx x | sknpVx x =>
    obtain ⟨stack, sp, st, fb, held⟩ := o
    obtain rfl : _ = id := spared
    rfl
  | ret => exact exec_ret_apply o s spared.1 spared.2
  | callAddr nnn => exact exec_callAddr_apply o s nnn spared.1 spared.2
  | drwVxVyN x y n => exact exec_drwVxVyN_apply o s x y n spared
  | ldBVx x => exact storeAtIndex_apply o s (decimalDigits (reg s x))
  | ldMemVx x => exact storeAtIndex_apply o s (regsUpTo s x)
  | ldVxMem x => exact exec_ldVxMem_apply o s x
  | ldVxK x => exact exec_ldVxK_apply o s x
  | _ => rfl

theorem exec_apply_next {o : Override} {i : Instr} (spared : o.Spares i) {s t : State} (h : exec i s = .next t) :
    exec i (o.apply s) = .next (o.apply t) := by
  rw [exec_apply spared, h]
  rfl

theorem exec_apply_fault {o : Override} {i : Instr} (spared : o.Spares i) {s : State} {f : Fault}
    (h : exec i s = .fault f) : exec i (o.apply s) = .fault f := by
  rw [exec_apply spared, h]
  rfl

end Sys2Proof.Machine

namespace Sys2Proof

open Sys2Proof.Machine

/-! ### STACK and SP -/

/-- Another call stack. -/
def otherStack (stack : Vector Word Config.stackDepth) (sp : Fin (Config.stackDepth + 1)) : Override :=
  { stack := fun _ => stack, sp := fun _ => sp }

theorem otherStack_spares {i : Instr} (hret : i ≠ .ret) (hcall : ∀ nnn, i ≠ .callAddr nnn)
    (stack : Vector Word Config.stackDepth) (sp : Fin (Config.stackDepth + 1)) : (otherStack stack sp).Spares i := by
  cases i with
  | ret => exact absurd rfl hret
  | callAddr nnn => exact absurd rfl (hcall nnn)
  | cls | drwVxVyN x y n | skpVx x | sknpVx x | ldSTVx x => rfl
  | _ => trivial

theorem exec_keeps_stack {i : Instr} (hret : i ≠ .ret) (hcall : ∀ nnn, i ≠ .callAddr nnn) {s t : State}
    (h : exec i s = .next t) : t.stack = s.stack ∧ t.sp = s.sp := by
  refine (exec_frame h).stack ?_
  cases i with
  | ret => exact absurd rfl hret
  | callAddr nnn => exact absurd rfl (hcall nnn)
  | _ => rfl

/-- Settles O52: an instruction but CALL and RET spares the override of the stack and has it outside its footprint. -/
theorem stackIsReachedByCallAndRetAlone : Obligations.StackIsReachedByCallAndRetAlone := by
  refine ⟨fun i s stack sp hret hcall => ⟨fun t h => ?_, fun f h => ?_⟩, fun s addr n bytes stack sp => ?_⟩
  · obtain ⟨hstack, hsp⟩ := exec_keeps_stack hret hcall h
    exact ⟨hstack, hsp, exec_apply_next (otherStack_spares hret hcall stack sp) h⟩
  · exact exec_apply_fault (otherStack_spares hret hcall stack sp) h
  · refine ⟨fetch_apply (otherStack stack sp) s, memRead_apply (otherStack stack sp) s addr n, fun t h => ?_⟩
    obtain ⟨_, _, rfl⟩ := (memWrite_ok_iff s t addr bytes).mp h
    exact ⟨rfl, rfl⟩

/-! ### FB -/

/-- Another framebuffer. -/
def otherFb (fb : Framebuffer) : Override := { fb := fun _ => fb }

theorem otherFb_spares {i : Instr} (hcls : i ≠ .cls) (hdrw : ∀ x y n, i ≠ .drwVxVyN x y n) (fb : Framebuffer) :
    (otherFb fb).Spares i := by
  cases i with
  | cls => exact absurd rfl hcls
  | drwVxVyN x y n => exact absurd rfl (hdrw x y n)
  | ret | callAddr nnn => exact ⟨rfl, rfl⟩
  | skpVx x | sknpVx x | ldSTVx x => rfl
  | _ => trivial

theorem exec_keeps_fb {i : Instr} (hcls : i ≠ .cls) (hdrw : ∀ x y n, i ≠ .drwVxVyN x y n) {s t : State}
    (h : exec i s = .next t) : t.fb = s.fb := by
  refine (exec_frame h).fb ?_
  cases i with
  | cls => exact absurd rfl hcls
  | drwVxVyN x y n => exact absurd rfl (hdrw x y n)
  | _ => rfl

/-- Where DRW faults does not depend on the framebuffer. -/
theorem exec_drwVxVyN_fault_otherFb {x y : Reg} {n : Nibble} {s : State} {f : Fault} (fb : Framebuffer)
    (h : exec (.drwVxVyN x y n) s = .fault f) : exec (.drwVxVyN x y n) { s with fb := fb } = .fault f := by
  by_cases hn : n = 0#4
  · subst hn; exact h
  · by_cases inside : dataAddress s + n.toNat ≤ Config.memSize
    · rw [exec_drwVxVyN s x y n hn inside] at h
      cases h
    · have outside : Config.memSize < dataAddress s + n.toNat := by omega
      rw [exec_drwVxVyN_fault s x y n hn outside] at h
      cases h
      exact exec_drwVxVyN_fault { s with fb := fb } x y n hn outside

/-- With another framebuffer a completing instruction does the same but for FB, and for VF where it is DRW. -/
theorem exec_otherFb {i : Instr} {s t : State} (fb : Framebuffer) (h : exec i s = .next t) :
    ∃ t', exec i { s with fb := fb } = .next t' ∧ { t' with fb := t.fb, v := t.v } = t ∧
      (∀ r, (r = 15 → ∀ x y n, i ≠ .drwVxVyN x y n) → reg t' r = reg t r) := by
  by_cases hcls : i = .cls
  · subst hcls
    cases h
    exact ⟨_, rfl, rfl, fun _ _ => rfl⟩
  by_cases hdrw : ∃ x y n, i = .drwVxVyN x y n
  · obtain ⟨x, y, n, rfl⟩ := hdrw
    obtain ⟨hn, inside, rfl⟩ := exec_drwVxVyN_inv h
    refine ⟨_, exec_drwVxVyN { s with fb := fb } x y n hn inside, rfl, fun r hr => ?_⟩
    have other : r ≠ .flag := fun e => hr e x y n rfl
    rw [reg_advance, reg_advance, reg_setReg_other _ _ other, reg_setReg_other _ _ other]
    rfl
  · have hdrw : ∀ x y n, i ≠ .drwVxVyN x y n := fun x y n e => hdrw ⟨x, y, n, e⟩
    exact ⟨_, exec_apply_next (otherFb_spares hcls hdrw fb) h, rfl, fun _ _ => rfl⟩

theorem exec_fault_otherFb {i : Instr} {s : State} {f : Fault} (fb : Framebuffer) (h : exec i s = .fault f) :
    exec i { s with fb := fb } = .fault f := by
  by_cases hcls : i = .cls
  · subst hcls; cases h
  by_cases hdrw : ∃ x y n, i = .drwVxVyN x y n
  · obtain ⟨x, y, n, rfl⟩ := hdrw
    exact exec_drwVxVyN_fault_otherFb fb h
  · exact exec_apply_fault (otherFb_spares hcls (fun x y n e => hdrw ⟨x, y, n, e⟩) fb) h

/-- Settles O53: all but CLS and DRW spare the override of FB; CLS writes it whatever it was, and DRW only adds VF. -/
theorem framebufferIsReadThroughCollisionAlone : Obligations.FramebufferIsReadThroughCollisionAlone := by
  refine ⟨fun i s fb => ⟨fun t h => ?_, fun f h => exec_fault_otherFb fb h⟩, fun s addr n bytes fb => ?_⟩
  · exact ⟨fun hcls hdrw => exec_keeps_fb hcls hdrw h, exec_otherFb fb h⟩
  · refine ⟨fetch_apply (otherFb fb) s, memRead_apply (otherFb fb) s addr n, fun t h => ?_, rfl⟩
    obtain ⟨_, _, rfl⟩ := (memWrite_ok_iff s t addr bytes).mp h
    rfl

/-! ### ST -/

/-- Another sound timer. -/
def otherSt (b : Byte) : Override := { st := fun _ => b }

theorem otherSt_spares {i : Instr} (hld : ∀ x, i ≠ .ldSTVx x) (b : Byte) : (otherSt b).Spares i := by
  cases i with
  | ldSTVx x => exact absurd rfl (hld x)
  | ret | callAddr nnn => exact ⟨rfl, rfl⟩
  | cls | drwVxVyN x y n | skpVx x | sknpVx x => rfl
  | _ => trivial

theorem exec_keeps_st {i : Instr} (hld : ∀ x, i ≠ .ldSTVx x) {s t : State} (h : exec i s = .next t) :
    t.st = s.st := by
  refine (exec_frame h).st ?_
  cases i with
  | ldSTVx x => exact absurd rfl (hld x)
  | _ => rfl

theorem exec_fault_otherSt {i : Instr} {s : State} {f : Fault} (b : Byte) (h : exec i s = .fault f) :
    exec i { s with st := b } = .fault f := by
  refine exec_apply_fault (otherSt_spares ?_ b) h
  rintro x rfl
  cases h

/-- One decrement stops at 0 (44_timers_and_keys.md R178). -/
theorem toNat_decay (b : Byte) : (decay b).toNat = b.toNat - 1 := by
  unfold decay
  split
  · next zero => simp [zero]
  · next pos => bv_omega

theorem fire_tick {s : State} (live : s.phase ≠ .faulted) : fire .tick s = (.done, tick s) := by
  simp [fire, hostMove, live, replyOf]

/-- Settles O54: all but LD ST,Vx spare the override of ST, and LD ST,Vx writes it whatever it was. -/
theorem noInstructionReadsTheSoundTimer : Obligations.NoInstructionReadsTheSoundTimer := by
  refine ⟨fun i s b => ⟨fun t h => ?_, fun f h => exec_fault_otherSt b h⟩, fun s => ?_⟩
  · by_cases hld : ∃ x, i = .ldSTVx x
    · obtain ⟨x, rfl⟩ := hld
      cases h
      exact .inl ⟨x, rfl, rfl, rfl⟩
    · have hld : ∀ x, i ≠ .ldSTVx x := fun x e => hld ⟨x, e⟩
      exact .inr ⟨hld, exec_keeps_st hld h, exec_apply_next (otherSt_spares hld b) h⟩
  · exact ⟨toNat_decay s.st, toNat_decay s.dt, fire_tick, rfl⟩

/-! ### HELD -/

/-- Another held set. -/
def otherHeld (held : KeySet) : Override := { held := fun _ => held }

theorem otherHeld_spares {i : Instr} (hskp : ∀ x, i ≠ .skpVx x) (hsknp : ∀ x, i ≠ .sknpVx x) (held : KeySet) :
    (otherHeld held).Spares i := by
  cases i with
  | skpVx x => exact absurd rfl (hskp x)
  | sknpVx x => exact absurd rfl (hsknp x)
  | ret | callAddr nnn => exact ⟨rfl, rfl⟩
  | cls | drwVxVyN x y n | ldSTVx x => rfl
  | _ => trivial

theorem exec_fault_otherHeld {i : Instr} {s : State} {f : Fault} (held : KeySet) (h : exec i s = .fault f) :
    exec i { s with held := held } = .fault f := by
  refine exec_apply_fault (otherHeld_spares ?_ ?_ held) h
  · rintro x rfl
    cases h
  · rintro x rfl
    cases h

/-- Of the events a poll and the reset alone write HELD. -/
theorem hostMove_keeps_held {e : Event} {s t : State} (h : hostMove e s = .next t) (hcon : e ≠ .construct)
    (hpoll : ∀ held pressed, e ≠ .pollInput held pressed) : t.held = s.held := by
  rcases hostMove_next h with ⟨_, _, i, _, _, _, hx⟩ | ⟨_, _, rfl⟩ | ⟨held, pressed, he, _, _⟩ |
    ⟨bytes, _, _, _, rfl⟩ | ⟨he, _⟩ | ⟨_, rfl⟩
  · exact (exec_frame hx).held
  · rfl
  · exact absurd he (hpoll held pressed)
  · rfl
  · exact absurd he hcon
  · rfl

theorem hostMove_pollInput {s : State} (live : s.phase ≠ .faulted) (held : KeySet) (pressed : List Key) :
    hostMove (.pollInput held pressed) s = .next (pollInput held pressed s) := by
  simp [hostMove, live]

/-- Settles O55: HELD is outside every footprint, and all but SKP and SKNP spare its override. -/
theorem heldSetIsReadByKeySkipsAlone : Obligations.HeldSetIsReadByKeySkipsAlone := by
  refine ⟨fun e s t => hostMove_keeps_held, fun i s held => ⟨fun t h => ?_, fun f => exec_fault_otherHeld held, ?_⟩⟩
  · exact ⟨(exec_frame h).held, fun hskp hsknp => exec_apply_next (otherHeld_spares hskp hsknp held) h⟩
  · exact fun pressed live => ⟨_, hostMove_pollInput live held pressed, pollInput_held held pressed s⟩

end Sys2Proof
end

section
/-! PROOFS. The reset state: what `construct` leaves, and that it meets the invariants. -/

namespace Sys2Proof

open Sys2Proof.Machine

/-- The reset contents of memory above the font (20_memory.md R52). -/
theorem unlistedByte_above_font {a : Nat} (h : ¬ a < 80) : unlistedByte a = 0 := by
  have len : fontTable.length = 80 := rfl
  exact List.getD_eq_default _ _ (by omega)

theorem memByte_reset (a : Nat) : memByte State.reset.mem a = if a < 80 then fontTable.getD a 0 else 0 := by
  split
  · rfl
  · next h => exact unlistedByte_above_font h

theorem reg_reset (r : Reg) : reg State.reset r = 0 := by simp [reg, State.reset]

theorem pixel_reset (px : Fin Config.width) (py : Fin Config.height) : pixel State.reset.fb px py = false := by
  simp [pixel, State.reset]

theorem held_reset (k : Key) : State.reset.held[k.val] = false := by simp [State.reset]

/-- Settles O14: `construct` is `State.reset` but for the waiting inputs, read field by field. -/
theorem constructGivesTheResetState : Obligations.ConstructGivesTheResetState :=
  fun s => ⟨construct s, rfl, rfl, rfl, reg_reset, rfl, rfl, rfl, rfl, fun a _ => memByte_reset a, pixel_reset,
    held_reset, rfl, rfl⟩

/-- Settles O60, the base case of the four step lemmas. -/
theorem resetMeetsTheInvariants : Obligations.ResetMeetsTheInvariants :=
  ⟨memWf_reset, fun _ _ => rfl, List.nodup_nil, construct_pcReachable State.reset,
    construct_returnsAligned State.reset⟩

end Sys2Proof
end

section
/-! PROOFS. What one event can do to MEM, said once: it stores one run of bytes whole inside the address space and clear
of the font, or it resets MEM. The two invariants of MEM follow from the laws of such a store. -/

namespace Sys2Proof

open Sys2Proof.Machine

/-! ### One allowed store -/

/-- `m'` is `m` after one store that 20_memory.md R54 allows: the run lies in the address space (D17) and clear of the
font (D16). The empty run is the store that changes nothing. -/
def AllowedStore (m m' : Memory) : Prop :=
  ∃ (a : Nat) (bs : List Byte), Config.fontEnd ≤ a ∧ a + bs.length ≤ Config.memSize ∧ m' = memPutBytes m a bs

theorem AllowedStore.refl (m : Memory) : AllowedStore m m := ⟨Config.fontEnd, [], Nat.le_refl _, by decide, rfl⟩

theorem AllowedStore.memWf {m m' : Memory} (h : AllowedStore m m') (wf : memWf m = true) : memWf m' = true := by
  obtain ⟨a, bs, _, whole, rfl⟩ := h
  exact memWf_memPutBytes bs wf whole

theorem AllowedStore.memByte_font {m m' : Memory} (h : AllowedStore m m') {k : Nat} (hk : k < Config.fontEnd) :
    memByte m' k = memByte m k := by
  obtain ⟨a, bs, clear, _, rfl⟩ := h
  exact memByte_memPutBytes_outside bs m a k (.inl (by omega))

theorem AllowedStore.fontIntact {s t : State} (h : AllowedStore s.mem t.mem) (font : FontIntact s) : FontIntact t :=
  fun a ha => (h.memByte_font ha).trans (font a ha)

/-! ### What instructions and events do to MEM -/

theorem storeAtIndex_allowedStore {s t : State} {bytes : List Byte} (h : storeAtIndex s bytes = .next t) :
    AllowedStore s.mem t.mem := by
  obtain ⟨whole, clear, rfl⟩ := storeAtIndex_inv h
  exact ⟨dataAddress s, bytes, clear, whole, rfl⟩

/-- Every instruction but the two stores leaves MEM as it is, cell for cell. -/
theorem exec_mem {i : Instr} {s t : State} (hldB : ∀ x, i ≠ .ldBVx x) (hldMem : ∀ x, i ≠ .ldMemVx x)
    (h : exec i s = .next t) : t.mem = s.mem := by
  cases i with
  | ldBVx x => exact absurd rfl (hldB x)
  | ldMemVx x => exact absurd rfl (hldMem x)
  | ret => obtain ⟨_, _, rfl⟩ := exec_ret_inv h; rfl
  | callAddr nnn => obtain ⟨_, rfl⟩ := exec_callAddr_inv h; rfl
  | drwVxVyN x y n => obtain ⟨_, _, rfl⟩ := exec_drwVxVyN_inv h; rfl
  | ldVxMem x =>
    obtain ⟨_, rfl⟩ := exec_ldVxMem_inv h
    obtain ⟨v, hv⟩ := setRegsFrom_frame (memBytes s.mem (dataAddress s) (x.val + 1)) s 0
    rw [advance_mem, hv]
  | ldVxK x => rcases exec_ldVxK_inv h with ⟨_, rfl⟩ | ⟨_, _, _, rfl⟩ <;> rfl
  | _ => cases h; rfl

theorem exec_allowedStore {i : Instr} {s t : State} (h : exec i s = .next t) : AllowedStore s.mem t.mem := by
  cases i with
  | ldBVx x | ldMemVx x => exact storeAtIndex_allowedStore h
  | _ =>
    rw [exec_mem (by nofun) (by nofun) h]
    exact AllowedStore.refl s.mem

/-- What an event that is carried out does to MEM: a load is an allowed store because LOAD_BASE lies above the font. -/
theorem hostMove_mem {e : Event} {s t : State} (h : hostMove e s = .next t) :
    AllowedStore s.mem t.mem ∨ t.mem = State.reset.mem := by
  rcases hostMove_next h with ⟨_, _, i, _, _, _, hx⟩ | ⟨_, _, rfl⟩ | ⟨held, pressed, _, _, rfl⟩ |
    ⟨bytes, _, _, fits, rfl⟩ | ⟨_, rfl⟩ | ⟨_, rfl⟩
  · exact .inl (exec_allowedStore hx)
  · exact .inl (AllowedStore.refl s.mem)
  · exact .inl (AllowedStore.refl s.mem)
  · have base : Config.loadBase ≤ Config.memSize := by decide
    exact .inl ⟨Config.loadBase, bytes, by decide, by omega, rfl⟩
  · exact .inr rfl
  · exact .inl (AllowedStore.refl _)

/-! ### The invariants -/

/-- Settles O56: an allowed store keeps the canonical form, and the reset memory has it. -/
theorem stepKeepsMemoryForm : Obligations.StepKeepsMemoryForm := by
  intro s t wf h
  rcases hostMove_mem (s := takeEvent s) h with store | reset
  · exact store.memWf wf
  · rw [reset]
    exact memWf_reset

/-- Settles O57: an allowed store does not reach the font, and the reset memory holds it. -/
theorem stepKeepsTheFont : Obligations.StepKeepsTheFont := by
  intro s t font h
  rcases hostMove_mem (s := takeEvent s) h with store | reset
  · exact store.fontIntact font
  · intro a ha
    rw [reset, memByte_reset]
    exact if_pos ha

end Sys2Proof
end

section
/-! PROOFS. The fetch and the reads of memory: where the fetch faults, what a read gives, and that a fetch sees what a
block store has written. -/

namespace Sys2Proof

open Sys2Proof.Machine

/-! ### The fetch -/

/-- Where a word cannot be fetched: pc is odd (D8), or the word does not lie inside memory (20_memory.md R57). -/
theorem fetch_faults {s : State} (h : s.pc.toNat % 2 = 1 ∨ Config.memSize < s.pc.toNat + 2) :
    fetch s = .error (.operandRangeError s.pc none) := by
  cases hf : fetch s with
  | ok w =>
    obtain ⟨even, inside, _⟩ := (fetch_ok_iff s w).mp hf
    omega
  | error f => rw [fetch_error hf]

/-- In phase Loaded a fault of the fetch is the fault of the step (20_memory.md R56). -/
theorem interpret_fetch_error {s : State} {f : Fault} (hp : s.phase = .loaded) (hf : fetch s = .error f) :
    interpret s = .fault f := by
  simp only [interpret, hp, hf]

/-- Settles O9: both faults of the fetch reach the answer of the step, and elsewhere the fetch succeeds. -/
theorem fetchFaultsAtOddOrHighPc : Obligations.FetchFaultsAtOddOrHighPc := by
  intro s hp noEvent
  have size : Config.memSize = 4096 := rfl
  have step_faults (h : s.pc.toNat % 2 = 1 ∨ Config.memSize < s.pc.toNat + 2) :
      step s = .fault (.operandRangeError s.pc none) := by
    rw [step_of_agenda_nil noEvent, interpret_fetch_error hp (fetch_faults h)]
  refine ⟨fun odd => step_faults (.inl odd), fun _ high => step_faults (.inr (by omega)), fun even low => ?_⟩
  exact (fetch_ok_iff s _).mpr ⟨even, by omega, rfl⟩

/-! ### Reads -/

/-- Settles O42: the two answers of `MemRead`, and the bytes of a run one by one. -/
theorem memReadChecksThenReads : Obligations.MemReadChecksThenReads := by
  intro s addr n _ _
  refine ⟨fun outside => (memRead_error_iff s addr n _).mpr ⟨outside, rfl⟩, fun inside => ?_⟩
  exact ⟨memBytes s.mem addr n, (memRead_ok_iff s addr n _).mpr ⟨inside, rfl⟩, memBytes_length s.mem n addr,
    memBytes_getElem s.mem n addr⟩

/-! ### A fetch after a store -/

/-- After a block store that completes, V[k] lies at I + k (42_index_and_memory.md R145). -/
theorem memByte_exec_ldMemVx {s t : State} {x : Reg} (h : exec (.ldMemVx x) s = .next t) {k : Reg}
    (hk : k.val ≤ x.val) : memByte t.mem (dataAddress s + k.val) = reg s k := by
  obtain ⟨_, _, rfl⟩ := storeAtIndex_inv h
  have inBlock : k.val < (regsUpTo s x).length := by rw [regsUpTo_length]; omega
  exact (memByte_memPutBytes_inside _ s.mem (dataAddress s) k.val inBlock).trans
    (regsUpTo_getElem s x k.val inBlock k.isLt)

/-- Settles O43: the store lies inside memory, so the word at I can be fetched, and its bytes are V[0] and V[1]. -/
theorem storeIsSeenByTheNextFetch : Obligations.StoreIsSeenByTheNextFetch := by
  intro s t x h hx pc even
  obtain ⟨whole, _, _⟩ := storeAtIndex_inv h
  rw [regsUpTo_length] at whole
  have high : memByte t.mem s.i.toNat = reg s 0 := memByte_exec_ldMemVx h (k := 0) (Nat.zero_le _)
  have low : memByte t.mem (s.i.toNat + 1) = reg s 1 := memByte_exec_ldMemVx h (k := 1) hx
  have inside : s.i.toNat + 2 ≤ Config.memSize := by
    have : s.i.toNat + (x.val + 1) ≤ Config.memSize := whole
    omega
  refine (fetch_ok_iff t _).mpr ?_
  rw [pc, wordAt, high, low]
  exact ⟨even, inside, rfl⟩

end Sys2Proof
end

section
/-! PROOFS. The fields of a word as numbers, and the word a fetch gives. -/

namespace Sys2Proof

open Sys2Proof.Machine

@[simp] theorem fieldOp_toNat (w : Word) : (fieldOp w).toNat = w.toNat / 4096 := by
  have := w.isLt
  simp only [fieldOp, BitVec.extractLsb'_toNat, Nat.shiftRight_eq_div_pow]
  omega

@[simp] theorem fieldX_val (w : Word) : (fieldX w).val = w.toNat / 256 % 16 := by
  simp [fieldX, Nat.shiftRight_eq_div_pow]

@[simp] theorem fieldY_val (w : Word) : (fieldY w).val = w.toNat / 16 % 16 := by
  simp [fieldY, Nat.shiftRight_eq_div_pow]

@[simp] theorem fieldN_toNat (w : Word) : (fieldN w).toNat = w.toNat % 16 := by simp [fieldN]

@[simp] theorem fieldKk_toNat (w : Word) : (fieldKk w).toNat = w.toNat % 256 := by simp [fieldKk]

@[simp] theorem fieldNnn_toNat (w : Word) : (fieldNnn w).toNat = w.toNat % 4096 := by simp [fieldNnn]

/-- The first byte of a word is its high one (20_memory.md R58). -/
theorem wordOfBytes_toNat (byte0 byte1 : Byte) :
    (wordOfBytes byte0 byte1).toNat = byte0.toNat * 256 + byte1.toNat := by
  rw [wordOfBytes, BitVec.toNat_append, ← Nat.shiftLeft_add_eq_or_of_lt byte1.isLt, Nat.shiftLeft_eq]

theorem fieldKk_wordOfBytes (byte0 byte1 : Byte) : fieldKk (wordOfBytes byte0 byte1) = byte1 := by
  apply BitVec.eq_of_toNat_eq
  rw [fieldKk_toNat, wordOfBytes_toNat]
  omega

/-- Settles O2: every field is a quotient and a remainder of the word's number, which is `byte0 * 256 + byte1`. -/
theorem fetchedWordFieldsAreBitSlices : Obligations.FetchedWordFieldsAreBitSlices := by
  intro s w h
  obtain ⟨_, _, rfl⟩ := (fetch_ok_iff s w).mp h
  rw [wordAt]
  generalize memByte s.mem s.pc.toNat = byte0
  generalize memByte s.mem (s.pc.toNat + 1) = byte1
  have := byte0.isLt
  have := byte1.isLt
  simp only [fieldOp_toNat, fieldX_val, fieldY_val, fieldN_toNat, fieldNnn_toNat, fieldKk_wordOfBytes,
    wordOfBytes_toNat, true_and]
  omega

end Sys2Proof
end

section
/-! PROOFS. The opcode map: one row for a word at most, and decoding after encoding. -/

namespace Sys2Proof

open Sys2Proof.Laws

/-- Settles O1: the twelve words run through the map. -/
theorem sampleWordsDecode : Obligations.SampleWordsDecode := by
  unfold Obligations.SampleWordsDecode
  decide

/-- Settles O3: of two rows at different places the earlier one excludes the later one. -/
theorem atMostOneRowMatches : Obligations.AtMostOneRowMatches := by
  intro w j k hj hk
  have exclusive (a b : Fin opcodeMap.length) (hab : a < b) (ha : rowAccepts w opcodeMap[a] = true) :
      rowAccepts w opcodeMap[b] ≠ true :=
    ne_true_of_eq_false
      (rows_exclusive (List.pairwise_iff_getElem.mp opcodeMap_masks_differ a b a.isLt b.isLt hab) ha)
  rcases lt_trichotomy j k with before | same | after
  · exact absurd hk (exclusive j k before hj)
  · exact same
  · exact absurd hj (exclusive k j after hk)

/-- Every well-formed instruction has its row. -/
theorem ownRow : ∀ i : Instr, OwnRow.Statement i
  | .cls => OwnRow.cls
  | .ret => OwnRow.ret
  | .jpAddr nnn => OwnRow.jpAddr nnn
  | .callAddr nnn => OwnRow.callAddr nnn
  | .seVxByte x kk => OwnRow.seVxByte x kk
  | .seVxVy x y => OwnRow.seVxVy x y
  | .sneVxByte x kk => OwnRow.sneVxByte x kk
  | .sneVxVy x y => OwnRow.sneVxVy x y
  | .ldVxByte x kk => OwnRow.ldVxByte x kk
  | .ldVxVy x y => OwnRow.ldVxVy x y
  | .ldIAddr nnn => OwnRow.ldIAddr nnn
  | .addVxByte x kk => OwnRow.addVxByte x kk
  | .addVxVy x y => OwnRow.addVxVy x y
  | .orVxVy x y => OwnRow.orVxVy x y
  | .andVxVy x y => OwnRow.andVxVy x y
  | .xorVxVy x y => OwnRow.xorVxVy x y
  | .subVxVy x y => OwnRow.subVxVy x y
  | .subnVxVy x y => OwnRow.subnVxVy x y
  | .shrVx x => OwnRow.shrVx x
  | .shlVx x => OwnRow.shlVx x
  | .rndVxByte x kk => OwnRow.rndVxByte x kk
  | .jpV0Addr nnn => OwnRow.jpV0Addr nnn
  | .drwVxVyN x y n => OwnRow.drwVxVyN x y n
  | .skpVx x => OwnRow.skpVx x
  | .sknpVx x => OwnRow.sknpVx x
  | .ldVxDT x => OwnRow.ldVxDT x
  | .ldDTVx x => OwnRow.ldDTVx x
  | .ldSTVx x => OwnRow.ldSTVx x
  | .addIVx x => OwnRow.addIVx x
  | .ldFVx x => OwnRow.ldFVx x
  | .ldBVx x => OwnRow.ldBVx x
  | .ldMemVx x => OwnRow.ldMemVx x
  | .ldVxMem x => OwnRow.ldVxMem x
  | .ldVxK x => OwnRow.ldVxK x

/-- Settles O4: the word matches the instruction's own row, and by disjointness it decodes by no other. -/
theorem decodeOfEncode : Obligations.DecodeOfEncode := by
  intro i wf
  obtain ⟨r, mem, accepts, build⟩ := ownRow i wf
  rw [decode_of_row mem accepts, build]

end Sys2Proof
end

section
/-! PROOFS. Encoding after decoding: per operand form (30_encoding.md R72) the fields put back into the pattern give the
word, and so every row of the map gives back the words it accepts. -/

namespace Sys2Proof

/-! ### The fields put back into the pattern of a word -/

@[simp] theorem regBits_fieldX (w : Word) : regBits (fieldX w) = w.extractLsb' 8 4 := rfl

@[simp] theorem regBits_fieldY (w : Word) : regBits (fieldY w) = w.extractLsb' 4 4 := rfl

theorem wordNnn_fields {w p : Word} (h : w &&& 0xF000 = p) : wordNnn p (fieldNnn w) = w := by
  subst h
  ext i hi
  interval_cases i <;> simp [wordNnn, fieldNnn]

theorem wordXkk_fields {w p : Word} (h : w &&& 0xF000 = p) : wordXkk p (fieldX w) (fieldKk w) = w := by
  subst h
  ext i hi
  interval_cases i <;> simp [wordXkk, wordX, fieldKk]

theorem wordXy_fields {w p : Word} (h : w &&& 0xF00F = p) : wordXy p (fieldX w) (fieldY w) = w := by
  subst h
  ext i hi
  interval_cases i <;> simp [wordXy, wordX]

theorem wordXyn_fields {w p : Word} (h : w &&& 0xF000 = p) :
    wordXyn p (fieldX w) (fieldY w) (fieldN w) = w := by
  subst h
  ext i hi
  interval_cases i <;> simp [wordXyn, wordXy, wordX, fieldN]

theorem wordX_fields {w p : Word} (h : w &&& 0xF0FF = p) : wordX p (fieldX w) = w := by
  subst h
  ext i hi
  interval_cases i <;> simp [wordX]

/-- Without its `y` field a word of form XY is given back with that field cleared (30_encoding.md R79). -/
theorem wordX_fieldX_clears_y {w p : Word} (h : w &&& 0xF00F = p) : wordX p (fieldX w) = w &&& 0xFF0F := by
  subst h
  ext i hi
  interval_cases i <;> simp [wordX]

/-! ### The rows, by operand form -/

theorem rowAccepts_iff (w : Word) (r : OpcodeRow) :
    rowAccepts w r = true ↔ w &&& r.mask = r.pattern ∧ r.excluded w = false := by
  simp [rowAccepts]

/-- The row gives back every word it accepts, for the shifts up to the ignored `y` field. -/
def ReadsBack (r : OpcodeRow) : Prop :=
  ∀ w, rowAccepts w r = true →
    wellFormed (r.build w) = true ∧ encode (r.build w) = if isShift (r.build w) = true then w &&& 0xFF0F else w

/-- The instruction is well-formed and no shift, and its word is `w`. -/
def HasWord (i : Instr) (w : Word) : Prop := wellFormed i = true ∧ isShift i = false ∧ encode i = w

/-- The instruction is a well-formed shift, and its word is `w`. -/
def HasShiftWord (i : Instr) (w : Word) : Prop := wellFormed i = true ∧ isShift i = true ∧ encode i = w

theorem readsBack_of_hasWord {r : OpcodeRow}
    (h : ∀ w, w &&& r.mask = r.pattern → r.excluded w = false → HasWord (r.build w) w) : ReadsBack r := by
  intro w accepts
  obtain ⟨masked, kept⟩ := (rowAccepts_iff w r).mp accepts
  obtain ⟨wf, noShift, word⟩ := h w masked kept
  exact ⟨wf, by simp [noShift, word]⟩

section
variable {name : String} {p : Word}

theorem readsBack_none {i : Instr} (h : HasWord i p) : ReadsBack ⟨name, 0xFFFF, p, noneExcluded, fun _ => i⟩ :=
  readsBack_of_hasWord fun w masked _ => by
    rwa [show w = p from BitVec.and_allOnes.symm.trans masked]

theorem readsBack_nnn {instr : Addr12 → Instr} (h : ∀ nnn, HasWord (instr nnn) (wordNnn p nnn)) :
    ReadsBack ⟨name, 0xF000, p, noneExcluded, fun w => instr (fieldNnn w)⟩ :=
  readsBack_of_hasWord fun w masked _ => by
    simpa only [wordNnn_fields masked] using h (fieldNnn w)

theorem readsBack_xkk {instr : Reg → Byte → Instr} (h : ∀ x kk, HasWord (instr x kk) (wordXkk p x kk)) :
    ReadsBack ⟨name, 0xF000, p, noneExcluded, fun w => instr (fieldX w) (fieldKk w)⟩ :=
  readsBack_of_hasWord fun w masked _ => by
    simpa only [wordXkk_fields masked] using h (fieldX w) (fieldKk w)

theorem readsBack_xy {instr : Reg → Reg → Instr} (h : ∀ x y, HasWord (instr x y) (wordXy p x y)) :
    ReadsBack ⟨name, 0xF00F, p, noneExcluded, fun w => instr (fieldX w) (fieldY w)⟩ :=
  readsBack_of_hasWord fun w masked _ => by
    simpa only [wordXy_fields masked] using h (fieldX w) (fieldY w)

theorem readsBack_x {instr : Reg → Instr} (h : ∀ x, HasWord (instr x) (wordX p x)) :
    ReadsBack ⟨name, 0xF0FF, p, noneExcluded, fun w => instr (fieldX w)⟩ :=
  readsBack_of_hasWord fun w masked _ => by
    simpa only [wordX_fields masked] using h (fieldX w)

theorem readsBack_shift {instr : Reg → Instr} (h : ∀ x, HasShiftWord (instr x) (wordX p x)) :
    ReadsBack ⟨name, 0xF00F, p, noneExcluded, fun w => instr (fieldX w)⟩ := by
  intro w accepts
  obtain ⟨wf, shift, word⟩ := h (fieldX w)
  refine ⟨wf, ?_⟩
  simp only [shift, word, if_true]
  exact wordX_fieldX_clears_y ((rowAccepts_iff w _).mp accepts).1

/-- The row of DRW excludes `n` = 0, and so what it reads is well-formed (30_encoding.md R80). -/
theorem readsBack_drw :
    ReadsBack ⟨name, 0xF000, 0xD000, fun w => fieldN w == 0#4,
      fun w => .drwVxVyN (fieldX w) (fieldY w) (fieldN w)⟩ :=
  readsBack_of_hasWord fun _ masked kept =>
    ⟨by simpa [wellFormed, bne] using kept, rfl, wordXyn_fields masked⟩

end

theorem controlRows_readBack : ∀ r ∈ controlRows, ReadsBack r := by
  simp only [controlRows, List.forall_mem_append, List.forall_mem_singleton, and_assoc]
  refine ⟨readsBack_none ?_, readsBack_none ?_, readsBack_nnn ?_, readsBack_nnn ?_, readsBack_xkk ?_, readsBack_xy ?_,
    readsBack_xkk ?_, readsBack_xy ?_⟩ <;> intros <;> exact ⟨rfl, rfl, rfl⟩

theorem registerRows_readBack : ∀ r ∈ registerRows, ReadsBack r := by
  simp only [registerRows, List.forall_mem_append, List.forall_mem_singleton, and_assoc]
  refine ⟨readsBack_xkk ?_, readsBack_xy ?_, readsBack_nnn ?_, readsBack_xkk ?_, readsBack_xy ?_, readsBack_xy ?_,
    readsBack_xy ?_, readsBack_xy ?_, readsBack_xy ?_, readsBack_xy ?_, readsBack_shift ?_, readsBack_shift ?_⟩ <;>
    intros <;> exact ⟨rfl, rfl, rfl⟩

theorem restRows_readBack : ∀ r ∈ restRows, ReadsBack r := by
  simp only [restRows, List.forall_mem_append, List.forall_mem_singleton, and_assoc]
  refine ⟨readsBack_xkk ?_, readsBack_nnn ?_, readsBack_drw, readsBack_x ?_, readsBack_x ?_⟩ <;>
    intros <;> exact ⟨rfl, rfl, rfl⟩

theorem miscRows_readBack : ∀ r ∈ miscRows, ReadsBack r := by
  simp only [miscRows, List.forall_mem_append, List.forall_mem_singleton, and_assoc]
  refine ⟨readsBack_x ?_, readsBack_x ?_, readsBack_x ?_, readsBack_x ?_, readsBack_x ?_, readsBack_x ?_,
    readsBack_x ?_, readsBack_x ?_, readsBack_x ?_⟩ <;> intros <;> exact ⟨rfl, rfl, rfl⟩

/-- Every row of the map gives back the words it accepts, each by the lemma of its form. -/
theorem opcodeMap_readsBack : ∀ r ∈ opcodeMap, ReadsBack r := by
  simp only [opcodeMap, List.forall_mem_append]
  exact ⟨⟨⟨controlRows_readBack, registerRows_readBack⟩, restRows_readBack⟩, miscRows_readBack⟩

/-- Settles O5: the word was read from a row that gives it back. -/
theorem encodeOfDecode : Obligations.EncodeOfDecode := by
  intro w i h
  obtain ⟨r, mem, accepts, rfl⟩ := decode_inv h
  exact opcodeMap_readsBack r mem w accepts

end Sys2Proof
end

section
/-! PROOFS. The illegal words: what a row compares, as numbers, against the lines of the table of 30_encoding.md
R77. -/

namespace Sys2Proof

/-- A word is rejected exactly when no row of the map accepts it. -/
theorem decode_error_iff (w : Word) : (∃ e, decode w = .error e) ↔ ∀ r ∈ opcodeMap, rowAccepts w r = false := by
  refine ⟨fun ⟨e, he⟩ r hr => ?_, fun h => ⟨_, decode_of_no_row h⟩⟩
  by_contra accepts
  rw [Bool.not_eq_false] at accepts
  simp [decode_of_row hr accepts] at he

/-! ### Masked words as numbers -/

/-- The bits under two disjoint masks add up. -/
theorem toNat_and_or (w : Word) {a b : Word} (disjoint : a &&& b = 0#16) :
    (w &&& (a ||| b)).toNat = (w &&& a).toNat + (w &&& b).toNat := by
  have h : (w &&& a) &&& (w &&& b) = 0#16 := by
    rw [BitVec.and_assoc, ← BitVec.and_assoc a, BitVec.and_comm a, BitVec.and_assoc, disjoint]
    simp
  rw [BitVec.and_or_distrib_left, ← BitVec.add_eq_or_of_and_eq_zero _ _ h, BitVec.toNat_add_of_and_eq_zero h]

@[simp] theorem toNat_and_all (w : Word) : (w &&& 0xFFFF).toNat = w.toNat :=
  congrArg BitVec.toNat BitVec.and_allOnes

theorem toNat_and_op (w : Word) : (w &&& 0xF000).toNat = w.toNat / 4096 * 4096 := by
  have split : (w &&& 0xFFFF).toNat = (w &&& 0xF000).toNat + (w &&& 0x0FFF).toNat :=
    toNat_and_or w (a := 0xF000) (b := 0x0FFF) (by decide)
  have low : (w &&& 0x0FFF).toNat = w.toNat % 4096 := Nat.and_two_pow_sub_one_eq_mod w.toNat 12
  rw [toNat_and_all] at split
  omega

theorem toNat_and_op_n (w : Word) : (w &&& 0xF00F).toNat = w.toNat / 4096 * 4096 + w.toNat % 16 := by
  have split : (w &&& 0xF00F).toNat = (w &&& 0xF000).toNat + (w &&& 0x000F).toNat :=
    toNat_and_or w (a := 0xF000) (b := 0x000F) (by decide)
  have low : (w &&& 0x000F).toNat = w.toNat % 16 := Nat.and_two_pow_sub_one_eq_mod w.toNat 4
  rw [split, low, toNat_and_op]

theorem toNat_and_op_kk (w : Word) : (w &&& 0xF0FF).toNat = w.toNat / 4096 * 4096 + w.toNat % 256 := by
  have split : (w &&& 0xF0FF).toNat = (w &&& 0xF000).toNat + (w &&& 0x00FF).toNat :=
    toNat_and_or w (a := 0xF000) (b := 0x00FF) (by decide)
  have low : (w &&& 0x00FF).toNat = w.toNat % 256 := Nat.and_two_pow_sub_one_eq_mod w.toNat 8
  rw [split, low, toNat_and_op]

/-! ### The table -/

/-- No row accepts the word exactly when the table lists it: both are conditions on the word's number and its `n` and
`kk`, compared for each of the 16 leading nibbles. -/
theorem no_row_iff_illegalWord (w : Word) : (∀ r ∈ opcodeMap, rowAccepts w r = false) ↔ illegalWord w = true := by
  have leading : w.toNat / 4096 < 16 := by have := w.isLt; omega
  have n_lt : w.toNat % 16 < 16 := Nat.mod_lt _ (by decide)
  have kk_lt : w.toNat % 256 < 256 := Nat.mod_lt _ (by decide)
  have whole : w.toNat = w.toNat / 4096 * 4096 + w.toNat % 4096 := by omega
  simp only [opcodeMap, controlRows, registerRows, restRows, miscRows, List.forall_mem_append,
    List.forall_mem_singleton, rowAccepts, noneExcluded, Bool.and_eq_false_iff, Bool.not_eq_false', beq_iff_eq,
    beq_eq_false_iff_ne, ← BitVec.toNat_ne_iff_ne, ← BitVec.toNat_inj, toNat_and_all, toNat_and_op, toNat_and_op_n,
    toNat_and_op_kk, fieldN_toNat, illegalWord]
  generalize w.toNat / 4096 = op at *
  generalize w.toNat % 16 = n at *
  generalize w.toNat % 256 = kk at *
  interval_cases op <;> simp <;> omega

/-- Settles O6: a word is rejected when no row accepts it, and those words are the table's. -/
theorem illegalWordsAreTheListed : Obligations.IllegalWordsAreTheListed := fun w =>
  (decode_error_iff w).trans (no_row_iff_illegalWord w)

end Sys2Proof
end

section
/-! PROOFS. The control transfers and the conditional skips (40_control_flow.md): where each leaves pc and the call
stack, and that it changes nothing else. -/

namespace Sys2Proof

open Sys2Proof.Machine

/-- An instruction that completes leaves pc by the policy of 10_state.md R25 and keeps its frame. -/
theorem exec_completes {i : Instr} {s t : State} (h : exec i s = .next t) :
    ∃ t, exec i s = .next t ∧ t.pc = pcAfter i s ∧ Frame (footprint i s) s t :=
  ⟨t, h, exec_pc h, exec_frame h⟩

/-! ### The call stack -/

/-- A CALL that completes writes the next address to the slot at SP, keeps every other slot, and raises SP. -/
theorem exec_callAddr_stack {s t : State} {nnn : Addr12} (h : exec (.callAddr nnn) s = .next t) :
    t.sp.val = s.sp.val + 1 ∧
      ∀ j (_ : j < Config.stackDepth), t.stack[j] = if j = s.sp.val then s.pc + 2 else s.stack[j] := by
  obtain ⟨_, rfl⟩ := exec_callAddr_inv h
  exact ⟨rfl, fun j _ => by simp only [setPc_stack, Vector.getElem_set, eq_comm]⟩

/-- Settles O22: both answers of RET; the popped slot keeps its value because only SP and pc are written. -/
theorem retReturnsToTheNewestEntry : Obligations.RetReturnsToTheNewestEntry := by
  refine ⟨exec_ret_empty, fun s _ nonempty => ?_⟩
  obtain ⟨_, run⟩ := exec_ret s nonempty
  exact ⟨_, run, rfl, rfl, rfl, exec_frame run⟩

/-- Settles O24: both answers of CALL, with the stack it leaves slot by slot. -/
theorem callPushesTheNextAddress : Obligations.CallPushesTheNextAddress := by
  refine ⟨exec_callAddr_full, fun s nnn room => ?_⟩
  have run := exec_callAddr s nnn room
  obtain ⟨sp, slots⟩ := exec_callAddr_stack run
  exact ⟨_, run, BitVec.toNat_setWidth_of_le (by decide), sp, slots, exec_frame run⟩

/-- Settles O25: after the CALL the newest entry is the slot it wrote, and RET takes it from there whatever pc is. -/
theorem retUndoesCall : Obligations.RetUndoesCall := by
  intro s t nnn pc call
  obtain ⟨sp, slots⟩ := exec_callAddr_stack call
  have newest : t.sp.val - 1 = s.sp.val := by omega
  have nonempty : (setPc t pc).sp.val ≠ 0 := by rw [setPc_sp]; omega
  obtain ⟨below, ret⟩ := exec_ret (setPc t pc) nonempty
  refine ⟨_, ret, ?_, Fin.ext newest, fun j h valid => ?_⟩
  · exact (slots _ below).trans (if_pos newest)
  · exact (slots j h).trans (if_neg (Nat.ne_of_lt valid))

/-! ### Jumps and skips -/

/-- The target of JP V0 is the sum as natural numbers: it is at most 0x10FE, so 16 bits hold it
(40_control_flow.md R108). -/
theorem offsetTarget_toNat (s : State) (nnn : Addr12) :
    (offsetTarget s nnn).toNat = (reg s 0).toNat + nnn.toNat := by
  have := (reg s 0).isLt
  have := nnn.isLt
  rw [offsetTarget_eq_ofNat, BitVec.toNat_ofNat]
  omega

/-- Settles O23: the two targets as numbers, and the frame of a jump. -/
theorem jumpsSetPcToTheirTarget : Obligations.JumpsSetPcToTheirTarget := by
  intro s nnn
  constructor
  · exact ⟨_, exec_jpAddr s nnn, BitVec.toNat_setWidth_of_le (by decide), exec_frame (exec_jpAddr s nnn)⟩
  · exact ⟨_, exec_jpV0Addr s nnn, offsetTarget_toNat s nnn, exec_frame (exec_jpV0Addr s nnn)⟩

/-- Settles O26: each skip completes, and the policy of R25 states its condition on the bytes themselves. -/
theorem skipsCompareRegistersAndBytes : Obligations.SkipsCompareRegistersAndBytes := by
  intro s x y kk
  simp only [BitVec.toNat_inj]
  exact ⟨exec_completes (exec_seVxByte s x kk), exec_completes (exec_seVxVy s x y),
    exec_completes (exec_sneVxByte s x kk), exec_completes (exec_sneVxVy s x y)⟩

end Sys2Proof
end

section
/-! PROOFS. The register loads, the arithmetic, logic and shift instructions and RND (41_load_and_alu.md): the flag
values as numbers, what each order of the writes leaves in V[x] and VF, and the value each instruction writes. -/

namespace Sys2Proof

open Sys2Proof.Machine

/-! ### The flag values as numbers (10_state.md R40) -/

theorem flagOf_decide (p : Prop) [Decidable p] : flagOf (decide p) = if p then 1 else 0 := by
  simp only [flagOf, decide_eq_true_eq]

theorem flagOf_toNat (c : Bool) : (flagOf c).toNat = c.toNat := by cases c <;> rfl

theorem carryFlag_eq_ite (a b : Byte) : carryFlag a b = if 255 < a.toNat + b.toNat then 1 else 0 :=
  flagOf_decide _

theorem notBorrowFlag_eq_ite (a b : Byte) : notBorrowFlag a b = if b.toNat ≤ a.toNat then 1 else 0 :=
  flagOf_decide _

theorem lowBitFlag_toNat (a : Byte) : (lowBitFlag a).toNat = a.toNat % 2 := by
  rw [lowBitFlag, flagOf_toNat, BitVec.getLsbD, Nat.toNat_testBit]
  omega

/-- Bit 7 is the topmost of a byte, so above it nothing is left to reduce. -/
theorem highBitFlag_toNat (a : Byte) : (highBitFlag a).toNat = a.toNat / 128 := by
  have := a.isLt
  rw [highBitFlag, flagOf_toNat, BitVec.getLsbD, Nat.toNat_testBit]
  omega

/-! ### The written values as numbers -/

theorem byte_sub_toNat (a b : Byte) : (a - b).toNat = (a.toNat + 256 - b.toNat) % 256 := by
  have := b.isLt
  rw [BitVec.toNat_sub]
  omega

theorem byte_shiftRight_one_toNat (a : Byte) : (a >>> 1).toNat = a.toNat / 2 := by
  rw [BitVec.toNat_ushiftRight, Nat.shiftRight_one]

theorem byte_shiftLeft_one_toNat (a : Byte) : (a <<< 1).toNat = a.toNat * 2 % 256 := by
  rw [BitVec.toNat_shiftLeft, Nat.shiftLeft_eq]

/-! ### The two orders of a result and a flag (D10) -/

section
variable {i : Instr} {s : State} {x : Reg} {b flag : Byte}

/-- A result alone: V[x] holds it, and VF is written only as V[x]. -/
theorem exec_result (run : exec i s = .next (advance (setReg s x b))) :
    ∃ t, exec i s = .next t ∧ reg t x = b ∧ t.pc = s.pc + 2 ∧ Frame (footprint i s) s t :=
  ⟨_, run, reg_setReg_same s x b, rfl, exec_frame run⟩

/-- The flag first, then the result: V[x] holds the result for every x, VF the flag for x other than 15. -/
theorem exec_flagThenResult (run : exec i s = .next (advance (setReg (setReg s .flag flag) x b))) :
    ∃ t, exec i s = .next t ∧ reg t x = b ∧ (x ≠ 15 → reg t 15 = flag) ∧ t.pc = s.pc + 2 ∧
      Frame (footprint i s) s t := by
  refine ⟨_, run, reg_setReg_same _ x b, fun notFlag => ?_, rfl, exec_frame run⟩
  exact (reg_setReg_other _ b notFlag.symm).trans (reg_setReg_same s .flag flag)

/-- The result first, then the flag: VF holds the flag for every x, V[x] the result for x other than 15. -/
theorem exec_resultThenFlag (run : exec i s = .next (advance (setReg (setReg s x b) .flag flag))) :
    ∃ t, exec i s = .next t ∧ reg t 15 = flag ∧ (x ≠ 15 → reg t x = b) ∧ t.pc = s.pc + 2 ∧
      Frame (footprint i s) s t := by
  refine ⟨_, run, reg_setReg_same _ .flag flag, fun notFlag => ?_, rfl, exec_frame run⟩
  exact (reg_setReg_other _ flag notFlag).trans (reg_setReg_same s x b)

end

/-! ### Loads, sums and logic -/

/-- Settles O28: both loads write a result and no flag. -/
theorem registerLoadsCopy : Obligations.RegisterLoadsCopy := fun s x y kk =>
  ⟨exec_result (exec_ldVxByte s x kk), exec_result (exec_ldVxVy s x y)⟩

/-- Settles O29: the sum of two bytes is the sum modulo 256, written without a flag. -/
theorem addByteWrapsWithoutFlag : Obligations.AddByteWrapsWithoutFlag := by
  intro s x kk
  obtain ⟨t, run, sum, pc, frame⟩ := exec_result (exec_addVxByte s x kk)
  exact ⟨t, run, by rw [sum, BitVec.toNat_add], pc, frame⟩

/-- Settles O30: each operation writes its result without a flag, and acts on the bits one by one. -/
theorem logicIsBitwiseWithoutFlag : Obligations.LogicIsBitwiseWithoutFlag := by
  intro s x y
  refine ⟨?or, ?and, ?xor⟩
  case or =>
    obtain ⟨t, run, result, pc, frame⟩ := exec_result (exec_orVxVy s x y)
    exact ⟨t, run, pc, frame, fun k => by rw [result, BitVec.getLsbD_or]⟩
  case and =>
    obtain ⟨t, run, result, pc, frame⟩ := exec_result (exec_andVxVy s x y)
    exact ⟨t, run, pc, frame, fun k => by rw [result, BitVec.getLsbD_and]⟩
  case xor =>
    obtain ⟨t, run, result, pc, frame⟩ := exec_result (exec_xorVxVy s x y)
    exact ⟨t, run, pc, frame, fun k => by rw [result, BitVec.getLsbD_xor]⟩

/-- Settles O31: ADD writes the flag last, so the carry remains for every x. -/
theorem addSetsCarry : Obligations.AddSetsCarry := by
  intro s x y
  obtain ⟨t, run, carry, sum, pc, frame⟩ := exec_resultThenFlag (exec_addVxVy s x y)
  exact ⟨t, run, carry.trans (carryFlag_eq_ite _ _), fun notFlag => by rw [sum notFlag, BitVec.toNat_add], pc, frame⟩

/-! ### Differences and shifts -/

/-- Settles O32: both subtractions write the result last, so the difference remains for every x. -/
theorem subtractionsSetNotBorrow : Obligations.SubtractionsSetNotBorrow := by
  intro s x y
  simp only [← byte_sub_toNat, ← notBorrowFlag_eq_ite, BitVec.toNat_inj]
  exact ⟨exec_flagThenResult (exec_subVxVy s x y), exec_flagThenResult (exec_subnVxVy s x y)⟩

/-- Settles O33: both shifts write the result last, so the shifted value remains for every x. -/
theorem shiftsSetTheBitShiftedOut : Obligations.ShiftsSetTheBitShiftedOut := by
  intro s x
  simp only [← byte_shiftRight_one_toNat, ← byte_shiftLeft_one_toNat, ← lowBitFlag_toNat, ← highBitFlag_toNat,
    BitVec.toNat_inj]
  exact ⟨exec_flagThenResult (exec_shrVx s x), exec_flagThenResult (exec_shlVx s x)⟩

/-! ### Random bytes -/

/-- A draw takes the next byte of the given sequence (49_host_interface.md R185). -/
theorem nextRandom_of_cons {s : State} {r : Byte} {rest : List Byte} (given : s.env.randomBytes = r :: rest) :
    nextRandom s = r := by
  rw [nextRandom, given]

/-- Where no byte is given a draw takes the free value (log 4). -/
theorem nextRandom_of_nil {s : State} (noneGiven : s.env.randomBytes = []) :
    nextRandom s = Config.randomByte s.env.draws := by
  rw [nextRandom, noneGiven]

/-- RND consumes one draw and writes it masked, whether a byte is given or not. -/
theorem exec_rndVxByte_draws (s : State) (x : Reg) (kk : Byte) :
    ∃ t, exec (.rndVxByte x kk) s = .next t ∧ reg t x = nextRandom s &&& kk ∧
      t.env.randomBytes = s.env.randomBytes.tail ∧ t.env.draws = s.env.draws + 1 ∧ t.pc = s.pc + 2 ∧
      Frame { regs := [x], random := true } s t :=
  ⟨_, exec_rndVxByte s x kk, reg_setReg_same _ x _, rfl, rfl, rfl, exec_frame (exec_rndVxByte s x kk)⟩

/-- Settles O34: the draw is the same operation in both cases, and they differ in the byte it gives. -/
theorem rndMasksOneDraw : Obligations.RndMasksOneDraw := by
  intro s x kk
  have draws := exec_rndVxByte_draws s x kk
  constructor
  · intro r rest given
    rwa [nextRandom_of_cons given, given] at draws
  · intro noneGiven
    rwa [nextRandom_of_nil noneGiven, noneGiven] at draws

end Sys2Proof
end

section
/-! PROOFS. The index register and the memory transfers (42_index_and_memory.md): the value each instruction gives I,
the bytes a store leaves and a load takes at I and up, and the faults outside the range of I. -/

namespace Sys2Proof

open Sys2Proof.Machine

/-! ### The index register -/

/-- An instruction that sets I changes I and pc alone. -/
theorem exec_index {i : Instr} {s : State} {w : Word} {n : Nat} (run : exec i s = .next (advance (setIndex s w)))
    (value : w.toNat = n) :
    ∃ t, exec i s = .next t ∧ t.i.toNat = n ∧ t.pc = s.pc + 2 ∧ Frame (footprint i s) s t :=
  ⟨_, run, value, rfl, exec_frame run⟩

/-- Settles O35: the 12-bit address fits the 16 bits of I. -/
theorem ldISetsIndex : Obligations.LdISetsIndex := fun s nnn =>
  exec_index (exec_ldIAddr s nnn) (BitVec.toNat_setWidth_of_le (by decide))

/-- Settles O36: the sum of 16 bits is the sum modulo 2^16 (D7), and the byte in it is not changed by widening. -/
theorem addIKeepsSixteenBits : Obligations.AddIKeepsSixteenBits := by
  intro s x
  refine exec_index (exec_addIVx s x) ?_
  rw [BitVec.toNat_add, BitVec.toNat_setWidth_of_le (by decide)]

/-- The glyph of the low nibble lies at 5 times it, at most 75, so I holds the address (20_memory.md R62). -/
theorem glyphAddress_toNat (b : Byte) : (glyphAddress b).toNat = 5 * (b.toNat % 16) := by
  have lowNibble : (b.extractLsb' 0 4).toNat = b.toNat % 16 := by
    rw [BitVec.extractLsb'_toNat, Nat.shiftRight_zero]
  rw [glyphAddress, lowNibble, fontSpriteAddress, BitVec.toNat_ofNat, Config.fontBase, Config.fontGlyphBytes]
  omega

/-- Settles O37: the high nibble has no part in the glyph address. -/
theorem ldFPointsAtTheGlyph : Obligations.LdFPointsAtTheGlyph := fun s x =>
  exec_index (exec_ldFVx s x) (glyphAddress_toNat (reg s x))

/-! ### Stores at I -/

/-- After a store at I that completes, byte `j` of it lies at I + j. -/
theorem memByte_storeAtIndex {s t : State} {bytes : List Byte} (h : storeAtIndex s bytes = .next t) {j : Nat}
    (hj : j < bytes.length) : memByte t.mem (dataAddress s + j) = bytes[j] := by
  obtain ⟨_, _, rfl⟩ := storeAtIndex_inv h
  exact memByte_memPutBytes_inside bytes s.mem (dataAddress s) j hj

/-- No digit exceeds 9, so a byte holds each as it is. -/
theorem decimalDigits_toNat (b : Byte) :
    (decimalDigits b).map BitVec.toNat = [b.toNat / 100, b.toNat / 10 % 10, b.toNat % 10] := by
  have small (d : Nat) (h : d < 10) : (BitVec.ofNat 8 d).toNat = d := Nat.mod_eq_of_lt (by omega)
  have := b.isLt
  simp only [decimalDigits, List.map_cons, List.map_nil]
  rw [small _ (by omega), small _ (by omega), small _ (by omega)]

/-- After LD B, byte `j` at I is digit `j`, hundreds first (D18). -/
theorem memByte_exec_ldBVx {s t : State} {x : Reg} (h : exec (.ldBVx x) s = .next t) {j : Nat} (hj : j < 3) :
    (memByte t.mem (dataAddress s + j)).toNat =
      [(reg s x).toNat / 100, (reg s x).toNat / 10 % 10, (reg s x).toNat % 10][j] := by
  rw [memByte_storeAtIndex h hj]
  exact (List.getElem_map BitVec.toNat).symm.trans (List.getElem_of_eq (decimalDigits_toNat (reg s x)) hj)

/-- Settles O38: the two answers of a store of three bytes, and the digits it leaves. -/
theorem ldBStoresDecimalDigits : Obligations.LdBStoresDecimalDigits := by
  refine fun s x => ⟨fun clear whole => ?_, fun outside => storeAtIndex_fault s _ outside.symm⟩
  have run : exec (.ldBVx x) s = _ := storeAtIndex_ok s (decimalDigits (reg s x)) whole clear
  exact ⟨_, run, memByte_exec_ldBVx run (j := 0) (by decide), memByte_exec_ldBVx run (j := 1) (by decide),
    memByte_exec_ldBVx run (j := 2) (by decide), rfl, exec_frame run⟩

/-- Settles O39: the two answers of a store of V[0] to V[x], and the registers it leaves in memory. -/
theorem blockStoreWritesRegisters : Obligations.BlockStoreWritesRegisters := by
  intro s x
  have length := regsUpTo_length s x
  refine ⟨fun clear whole => ?_, fun outside => storeAtIndex_fault s _ (by rw [length]; exact outside.symm)⟩
  have run : exec (.ldMemVx x) s = _ := storeAtIndex_ok s (regsUpTo s x) (by rw [length]; exact whole) clear
  exact ⟨_, run, fun k hk => memByte_exec_ldMemVx run hk, rfl, exec_frame run⟩

/-! ### Block loads -/

/-- After a block load that completes, V[k] holds the byte that lay at I + k (42_index_and_memory.md R146). -/
theorem reg_exec_ldVxMem {s t : State} {x : Reg} (h : exec (.ldVxMem x) s = .next t) {k : Reg}
    (hk : k.val ≤ x.val) : reg t k = memByte s.mem (dataAddress s + k.val) := by
  obtain ⟨_, rfl⟩ := exec_ldVxMem_inv h
  have inBlock : k.val < (memBytes s.mem (dataAddress s) (x.val + 1)).length := by rw [memBytes_length]; omega
  rw [reg_advance, reg_setRegsFrom, if_pos (Nat.zero_le _), Nat.sub_zero, List.getD_eq_getElem _ _ inBlock,
    memBytes_getElem]

/-- Settles O40: the two answers of a load of V[0] to V[x], and the bytes it takes. -/
theorem blockLoadReadsRegisters : Obligations.BlockLoadReadsRegisters := by
  refine fun s x => ⟨fun inside => ?_, fun outside => exec_ldVxMem_fault s x outside⟩
  have run := exec_ldVxMem s x inside
  exact ⟨_, run, fun k hk => reg_exec_ldVxMem run hk, exec_pc run, exec_frame run⟩

/-- Settles O41: the store leaves I (D19), so the load reads where it wrote, and the check of the store covers that of
the load. -/
theorem blockLoadUndoesBlockStore : Obligations.BlockLoadUndoesBlockStore := by
  intro s t x v store
  have sameIndex : dataAddress { t with v := v } = dataAddress s := congrArg BitVec.toNat ((exec_frame store).index rfl)
  have inside : dataAddress { t with v := v } + (x.val + 1) ≤ Config.memSize := by
    obtain ⟨whole, _, _⟩ := storeAtIndex_inv store
    rwa [sameIndex, ← regsUpTo_length s x]
  have load := exec_ldVxMem { t with v := v } x inside
  refine ⟨_, load, fun k hk => ?_⟩
  rw [reg_exec_ldVxMem load hk, sameIndex]
  exact memByte_exec_ldMemVx store hk

end Sys2Proof
end

section
/-! PROOFS. The display (43_display.md): CLS, and the loop of DRW as one exclusive or with a mask. A bit, a row and a
sprite are each drawn as a mask, and masks that share no pixel add up, because the second then reads its pixels as they
were before the first. -/

namespace Sys2Proof

open Sys2Proof.Machine

/-- Settles O44: the framebuffer CLS writes holds 0 in every byte. -/
theorem clsClearsEveryByte : Obligations.ClsClearsEveryByte := fun s =>
  ⟨_, exec_cls s, fun _ h => Vector.getElem_replicate h, rfl, exec_frame (exec_cls s)⟩

/-! ### Drawing a mask -/

/-- A set of pixels. -/
abbrev Mask := Fin Config.width → Fin Config.height → Bool

/-- Drawing took `d` to `d'` by flipping the pixels of the mask, and has seen a collision where one was set. -/
structure Draws (m : Mask) (d d' : Canvas) : Prop where
  pixels : ∀ px py, pixel d'.fb px py = (pixel d.fb px py ^^ m px py)
  coll : d'.coll = true ↔ d.coll = true ∨ ∃ px py, pixel d.fb px py = true ∧ m px py = true

theorem Draws.of_empty {m : Mask} (h : ∀ px py, m px py = false) (d : Canvas) : Draws m d d where
  pixels px py := by simp [h]
  coll := by simp [h]

/-- Two masks that share no pixel draw their union: the second finds its own pixels unchanged by the first. -/
theorem Draws.trans {m m₁ m₂ : Mask} {d d₁ d₂ : Canvas} (first : Draws m₁ d d₁) (second : Draws m₂ d₁ d₂)
    (disjoint : ∀ px py, m₁ px py = true → m₂ px py = false) (union : ∀ px py, m px py = (m₁ px py || m₂ px py)) :
    Draws m d d₂ where
  pixels px py := by
    rw [second.pixels, first.pixels, union]
    cases h : m₁ px py
    · simp
    · simp [disjoint px py h]
  coll := by
    have unchanged (px py) (h : m₂ px py = true) : pixel d₁.fb px py = pixel d.fb px py := by
      rw [first.pixels]
      cases h₁ : m₁ px py
      · simp
      · simp [disjoint px py h₁] at h
    have secondSet : (∃ px py, pixel d₁.fb px py = true ∧ m₂ px py = true) ↔
        ∃ px py, pixel d.fb px py = true ∧ m₂ px py = true :=
      exists₂_congr fun px py => and_congr_left fun h => by rw [unchanged px py h]
    simp only [second.coll, first.coll, secondSet, union, Bool.or_eq_true, and_or_left, exists_or, or_assoc]

/-! ### Where a pixel lies in a sprite -/

/-- The column of the display column, counted with wrap from `x0`. -/
def spriteColumn (x0 : Nat) (px : Fin Config.width) : Nat := (px.val + Config.width - x0 % Config.width) % Config.width

/-- The row of the display row, counted with wrap from `y0`. -/
def spriteRow (y0 : Nat) (py : Fin Config.height) : Nat := (py.val + Config.height - y0 % Config.height) % Config.height

theorem eq_wrapX_iff {x0 c : Nat} (hc : c < Config.width) (px : Fin Config.width) :
    px = wrapX (x0 + c) ↔ spriteColumn x0 px = c := by
  have := px.isLt
  simp only [Fin.ext_iff, wrapX, spriteColumn, Config.width] at *
  omega

theorem eq_wrapY_iff (y : Nat) (py : Fin Config.height) : py = wrapY y ↔ spriteRow y py = 0 := by
  have := py.isLt
  simp only [Fin.ext_iff, wrapY, spriteRow, Config.height] at *
  omega

/-- Counted from one row further down, the first row is the last. -/
theorem spriteRow_succ_of_zero {y : Nat} {py : Fin Config.height} (h : spriteRow y py = 0) :
    spriteRow (y + 1) py = Config.height - 1 := by
  simp only [spriteRow, Config.height] at *
  omega

theorem spriteRow_succ_of_succ {y r : Nat} {py : Fin Config.height} (h : spriteRow y py = r + 1) :
    spriteRow (y + 1) py = r := by
  have := py.isLt
  simp only [spriteRow, Config.height] at *
  omega

/-! ### One bit, one row, all rows -/

/-- The pixel of one sprite bit, if the bit is 1. -/
def bitMask (x0 : Nat) (py : Fin Config.height) (row : Byte) (c : Nat) : Mask := fun qx qy =>
  decide (qx = wrapX (x0 + c) ∧ qy = py) && row.getLsbD (7 - c)

/-- The pixels of the first `k` bits of a sprite row. -/
def rowMask (x0 : Nat) (py : Fin Config.height) (row : Byte) (k : Nat) : Mask := fun qx qy =>
  decide (qy = py) && decide (spriteColumn x0 qx < k) && row.getLsbD (7 - spriteColumn x0 qx)

/-- The pixels of the sprite rows; below the last row there are no bits. -/
def rowsMask (x0 y : Nat) (rows : List Byte) : Mask := fun qx qy =>
  decide (spriteColumn x0 qx < 8) && (rows.getD (spriteRow y qy) 0).getLsbD (7 - spriteColumn x0 qx)

theorem draws_drawBit (x0 : Nat) (py : Fin Config.height) (row : Byte) (d : Canvas) (c : Nat) :
    Draws (bitMask x0 py row c) d (drawBit x0 py row d c) where
  pixels qx qy := pixel_drawBit x0 py qy row d c qx
  coll := by
    simp only [coll_drawBit, bitMask, Bool.or_eq_true, Bool.and_eq_true, decide_eq_true_eq]
    constructor
    · rintro (⟨bit, set⟩ | before)
      · exact .inr ⟨wrapX (x0 + c), py, set, ⟨rfl, rfl⟩, bit⟩
      · exact .inl before
    · rintro (before | ⟨_, _, set, ⟨rfl, rfl⟩, bit⟩)
      · exact .inr before
      · exact .inl ⟨bit, set⟩

/-- The bits of a row lie on different columns because the display is at least 8 wide (43_display.md R156). -/
theorem draws_bits (x0 : Nat) (py : Fin Config.height) (row : Byte) (d : Canvas) :
    ∀ k ≤ 8, Draws (rowMask x0 py row k) d ((List.range k).foldl (drawBit x0 py row) d) := by
  intro k hk
  induction k with
  | zero => exact Draws.of_empty (fun _ _ => by simp [rowMask]) d
  | succ k ih =>
    have column (qx) : qx = wrapX (x0 + k) ↔ spriteColumn x0 qx = k :=
      eq_wrapX_iff (Nat.lt_of_lt_of_le hk (by decide)) qx
    rw [List.range_succ, List.foldl_append]
    refine (ih (by omega)).trans (draws_drawBit x0 py row _ k) (fun qx qy => ?disjoint) (fun qx qy => ?union)
    case disjoint =>
      simp only [rowMask, bitMask, column, Bool.and_eq_true, decide_eq_true_eq]
      rintro ⟨⟨_, before⟩, _⟩
      simp [Nat.ne_of_lt before]
    case union =>
      simp only [rowMask, bitMask, column, Nat.lt_succ_iff_lt_or_eq]
      by_cases same : spriteColumn x0 qx = k
      · simp [same]
      · simp [same]

theorem draws_drawRow (x0 : Nat) (py : Fin Config.height) (row : Byte) (d : Canvas) :
    Draws (rowMask x0 py row 8) d (drawRow x0 py d row) := draws_bits x0 py row d 8 (Nat.le_refl 8)

/-- The rows of a sprite lie on different display rows as long as they are no more than the display has
(43_display.md R156). -/
theorem draws_drawRows (x0 : Nat) (rows : List Byte) :
    ∀ (y : Nat) (d : Canvas), rows.length ≤ Config.height → Draws (rowsMask x0 y rows) d (drawRows x0 y d rows) := by
  induction rows with
  | nil => exact fun _ d _ => Draws.of_empty (fun _ _ => by simp [rowsMask]) d
  | cons row rows ih =>
    intro y d fits
    rw [List.length_cons] at fits
    have noBitAbove {qy} (h : spriteRow y qy = 0) : rows.getD (spriteRow (y + 1) qy) 0 = 0 :=
      List.getD_eq_default _ _ (by rw [spriteRow_succ_of_zero h]; omega)
    refine (draws_drawRow x0 (wrapY y) row d).trans (ih (y + 1) _ (by omega)) (fun qx qy => ?disjoint)
      (fun qx qy => ?union)
    case disjoint =>
      simp only [rowMask, rowsMask, eq_wrapY_iff, Bool.and_eq_true, decide_eq_true_eq]
      rintro ⟨⟨r, _⟩, _⟩
      rw [noBitAbove r]
      simp
    case union =>
      simp only [rowMask, rowsMask, eq_wrapY_iff]
      cases r : spriteRow y qy with
      | zero =>
        rw [noBitAbove r]
        simp
      | succ r' => simp [spriteRow_succ_of_succ r]

/-! ### DRW -/

theorem memBytes_getD (m : Memory) (a n r : Nat) :
    (memBytes m a n).getD r 0 = if r < n then memByte m (a + r) else 0 := by
  split
  · next inside => rw [List.getD_eq_getElem _ _ (by rwa [memBytes_length]), memBytes_getElem]
  · next outside => exact List.getD_eq_default _ _ (by rw [memBytes_length]; omega)

/-- The sprite of DRW in terms of where a pixel lies in it. -/
theorem spriteBit_eq (s : State) (x y : Reg) (n : Nibble) (px : Fin Config.width) (py : Fin Config.height) :
    spriteBit s x y n px py =
      (decide (spriteColumn (reg s x).toNat px < 8) && decide (spriteRow (reg s y).toNat py < n.toNat) &&
        (memByte s.mem (dataAddress s + spriteRow (reg s y).toNat py)).getLsbD
          (7 - spriteColumn (reg s x).toNat px)) := rfl

/-- The mask of the rows read from memory, at the wrapped origin, is the sprite. -/
theorem rowsMask_memBytes (s : State) (x y : Reg) (n : Nibble) :
    rowsMask (wrapX (reg s x).toNat).val (wrapY (reg s y).toNat).val (memBytes s.mem (dataAddress s) n.toNat) =
      spriteBit s x y n := by
  funext px py
  have column : spriteColumn (wrapX (reg s x).toNat).val px = spriteColumn (reg s x).toNat px := by
    simp [spriteColumn, wrapX]
  have row : spriteRow (wrapY (reg s y).toNat).val py = spriteRow (reg s y).toNat py := by
    simp [spriteRow, wrapY]
  simp only [rowsMask, column, row, memBytes_getD, spriteBit_eq]
  split
  · next inside => simp [inside]
  · next outside => simp [outside]

/-- The whole loop of DRW draws the sprite (43_display.md R156): `n` is at most 15, so the rows fit the display. -/
theorem draws_drawSprite (s : State) (x y : Reg) (n : Nibble) :
    Draws (spriteBit s x y n) { fb := s.fb, coll := false }
      (drawSprite s x y (memBytes s.mem (dataAddress s) n.toNat)) := by
  have fits : (memBytes s.mem (dataAddress s) n.toNat).length ≤ Config.height := by
    rw [memBytes_length]
    exact Nat.le_trans n.isLt.le (by decide)
  rw [← rowsMask_memBytes]
  exact draws_drawRows _ _ _ _ fits

/-- After a DRW that completes every pixel is the pixel before, flipped under a sprite bit of 1. -/
theorem pixel_exec_drwVxVyN {s t : State} {x y : Reg} {n : Nibble} (h : exec (.drwVxVyN x y n) s = .next t) (px py) :
    pixel t.fb px py = (pixel s.fb px py ^^ spriteBit s x y n px py) := by
  obtain ⟨_, _, rfl⟩ := exec_drwVxVyN_inv h
  exact (draws_drawSprite s x y n).pixels px py

/-- After a DRW that completes VF is the collision flag, whatever registers hold the coordinates. -/
theorem flag_exec_drwVxVyN {s t : State} {x y : Reg} {n : Nibble} (h : exec (.drwVxVyN x y n) s = .next t) :
    reg t 15 = collisionFlag (drawSprite s x y (memBytes s.mem (dataAddress s) n.toNat)).coll := by
  obtain ⟨_, _, rfl⟩ := exec_drwVxVyN_inv h
  exact reg_setReg_same _ .flag _

/-- Settles O45: the sprite is drawn as one mask, and its collision is what VF shows. -/
theorem drwXorsTheWrappedSprite : Obligations.DrwXorsTheWrappedSprite := by
  intro s x y n hn inside
  have run := exec_drwVxVyN s x y n hn inside
  have seen : (drawSprite s x y (memBytes s.mem (dataAddress s) n.toNat)).coll = true ↔ SpriteCollides s x y n := by
    simpa [SpriteCollides] using (draws_drawSprite s x y n).coll
  refine ⟨_, run, pixel_exec_drwVxVyN run, fun collides => ?_, fun clear => ?_, rfl, exec_frame run⟩
  · rw [flag_exec_drwVxVyN run, seen.mpr collides]
    rfl
  · rw [flag_exec_drwVxVyN run, Bool.eq_false_iff.mpr (mt seen.mp clear)]
    rfl

/-! ### Drawing twice -/

/-- DRW writes nothing that its sprite depends on, unless VF holds a coordinate. -/
theorem spriteBit_exec_drwVxVyN {s t : State} {x y : Reg} {n : Nibble} (hx : x ≠ 15) (hy : y ≠ 15)
    (h : exec (.drwVxVyN x y n) s = .next t) (px py) : spriteBit t x y n px py = spriteBit s x y n px py := by
  have frame := exec_frame h
  have outside {r : Reg} (hr : r ≠ 15) : reg t r = reg s r := frame.regs r (List.mem_singleton.not.mpr hr)
  have address : dataAddress t = dataAddress s := congrArg BitVec.toNat (frame.index rfl)
  have mem : t.mem = s.mem := exec_mem (by nofun) (by nofun) h
  simp only [spriteBit_eq, outside hx, outside hy, address, mem]

/-- Settles O46: the second draw flips the pixels that the first has flipped. -/
theorem drawingTwiceRestoresThePixels : Obligations.DrawingTwiceRestoresThePixels := by
  intro s t u x y n hx hy first second px py
  rw [pixel_exec_drwVxVyN second, spriteBit_exec_drwVxVyN hx hy first, pixel_exec_drwVxVyN first, Bool.xor_assoc,
    Bool.xor_self, Bool.xor_false]

end Sys2Proof
end

section
/-! PROOFS. The timer moves, the key skips and the key wait (44_timers_and_keys.md): when a step is a Retry, and what
each instruction copies, tests or consumes. -/

namespace Sys2Proof

open Sys2Proof.Machine

/-! ### The retry indicator -/

/-- The retry indicator says that the word at pc is a key wait and no key is pending. -/
theorem retries_iff (s : State) :
    retries s = true ↔ s.edge = [] ∧ ∃ w x, fetch s = .ok w ∧ decode w = .ok (.ldVxK x) := by
  constructor
  · intro h
    unfold retries at h
    split at h
    · next w hf =>
      split at h
      · next x hd => exact ⟨List.isEmpty_iff.mp h, w, x, hf, hd⟩
      · cases h
    · cases h
  · rintro ⟨noKey, w, x, hf, hd⟩
    simp only [retries, hf, hd, noKey, List.isEmpty_nil]

/-- A step that replies Retry was carried out, with the indicator set before it. -/
theorem fire_step_retry_inv {s t : State} (h : fire .step s = (.retry, t)) :
    interpret s = .next t ∧ retries s = true := by
  unfold fire at h
  split at h
  · next u move =>
    obtain ⟨reply, rfl⟩ := Prod.mk.inj h
    refine ⟨move, ?_⟩
    by_contra no
    rw [replyOf, if_neg no] at reply
    cases reply
  · cases h
  · cases h

/-- Settles O50: a step that replies Retry executed a key wait with EDGE empty, and such a step leaves the
state as it was. -/
theorem keyWaitRetriesUntilAKeyIsPending : Obligations.KeyWaitRetriesUntilAKeyIsPending := by
  refine ⟨fun s w x => fire_step_retry, fun s t h => ?_⟩
  obtain ⟨move, again⟩ := fire_step_retry_inv h
  obtain ⟨noKey, w, x, hf, hd⟩ := (retries_iff s).mp again
  obtain ⟨_, _, loaded, _⟩ := interpret_next move
  have unchanged := fire_step_retry loaded hf hd noKey
  exact ⟨congrArg Prod.snd (h.symm.trans unchanged), loaded, noKey, w, x, hf, hd⟩

/-! ### The key wait with a key pending -/

/-- A key's code fits a byte. -/
theorem key_toByte_toNat (k : Key) : (BitVec.ofNat 8 k.val).toNat = k.val := by
  have code : k.val < 16 := k.isLt
  rw [BitVec.toNat_ofNat]
  omega

/-- Settles O49: the key latched last goes to V[x] and leaves EDGE. -/
theorem keyWaitConsumesTheLatestKey : Obligations.KeyWaitConsumesTheLatestKey := by
  intro s x older k pending
  have run := exec_ldVxK s x older k pending
  refine ⟨_, run, ?_, rfl, rfl, exec_frame run⟩
  rw [reg_advance, reg_setReg_same, key_toByte_toNat]

/-! ### Timer moves -/

/-- Settles O47: each move writes its one register or timer. -/
theorem timerMovesCopy : Obligations.TimerMovesCopy := fun s x =>
  ⟨exec_result (exec_ldVxDT s x),
    ⟨_, exec_ldDTVx s x, rfl, rfl, exec_frame (exec_ldDTVx s x)⟩,
    ⟨_, exec_ldSTVx s x, rfl, rfl, exec_frame (exec_ldSTVx s x)⟩⟩

/-! ### Key skips -/

/-- A byte that is a key's code is looked up in HELD. -/
theorem keyHeld_of_key (s : State) {b : Byte} {k : Key} (h : b.toNat = k.val) : keyHeld s b = s.held[k.val] := by
  simp only [keyHeld, h, k.isLt, ↓reduceDIte]

/-- The values from 16 on are no keys, so none of them is held (D20). -/
theorem keyHeld_of_no_key (s : State) {b : Byte} (h : 16 ≤ b.toNat) : keyHeld s b = false :=
  dif_neg (Nat.not_lt.mpr h)

/-- An instruction whose pc policy asks whether V[x] is held, with the policy stated of the keys and of
the other values. -/
theorem exec_keySkip {i : Instr} {s t : State} {x : Reg} {held notHeld : Word} (run : exec i s = .next t)
    (policy : pcAfter i s = if keyHeld s (reg s x) then held else notHeld) :
    ∃ t, exec i s = .next t ∧ Frame (footprint i s) s t ∧
      (∀ k : Key, (reg s x).toNat = k.val → t.pc = if s.held[k.val] then held else notHeld) ∧
      (16 ≤ (reg s x).toNat → t.pc = notHeld) := by
  refine ⟨t, run, exec_frame run, fun k key => ?_, fun noKey => ?_⟩
  · rw [exec_pc run, policy, keyHeld_of_key s key]
  · rw [exec_pc run, policy, keyHeld_of_no_key s noKey, if_neg Bool.false_ne_true]

/-- Settles O48: SKP skips on a held key, SKNP on every other value. -/
theorem keySkipsTestTheHeldSet : Obligations.KeySkipsTestTheHeldSet := fun s x =>
  ⟨exec_keySkip (exec_skpVx s x) rfl, exec_keySkip (exec_sknpVx s x) rfl⟩

end Sys2Proof
end

section
/-! PROOFS. The machine step and the placed word: which event a step carries out, and that a word placed for the next
fetch is the one it executes (49_host_interface.md R174, R177; the agenda and the placing are the model's, logs 3, 6). -/

namespace Sys2Proof

open Sys2Proof.Machine

/-! ### The step and the agenda -/

/-- Settles O7: an empty agenda leaves the interpreter to move, and a first event moves with it taken off. -/
theorem stepRunsTheDecodedInstruction : Obligations.StepRunsTheDecodedInstruction := by
  have first {s : State} {e : Event} {rest : List Event} (h : s.env.agenda = e :: rest) :
      step s = hostMove e (takeEvent s) ∧ (takeEvent s).env.agenda = rest :=
    ⟨step_of_agenda_cons h, congrArg List.tail h⟩
  refine ⟨fun s w i hp hf hd => ⟨fun noEvent => ?_, fun rest h => ?_⟩, fun s e rest => first⟩
  · rw [step_of_agenda_nil noEvent, interpret_decoded hp hf hd]
  · obtain ⟨move, others⟩ := first h
    have taken : interpret (takeEvent s) = exec i (takeEvent s) := interpret_decoded hp hf hd
    exact ⟨move.trans taken, others⟩

/-! ### The placed word -/

/-- What `decodeTableWord` reads: the word of the two bytes that stand for the number. -/
theorem decodeTableWord_inv {nbits w : Nat} {i : Instr} (h : decodeTableWord nbits w = some i) :
    ∃ byte0 byte1, tableBytes nbits w = [byte0, byte1] ∧ decode (wordOfBytes byte0 byte1) = .ok i := by
  refine ⟨_, _, rfl, ?_⟩
  rw [decodeTableWord, tableBytes, decodeBytes] at h
  split at h
  · next j rest hj =>
    split at hj
    · next hd => cases hj; cases h; exact hd
    · cases hj
  · cases h

/-- The word at an address where two bytes have just been written. -/
theorem wordAt_memPutBytes (m : Memory) (a : Nat) (byte0 byte1 : Byte) :
    wordAt (memPutBytes m a [byte0, byte1]) a = wordOfBytes byte0 byte1 := by
  have high := memByte_memPutBytes_inside [byte0, byte1] m a 0 (by simp)
  have low := memByte_memPutBytes_inside [byte0, byte1] m a 1 (by simp)
  exact congrArg₂ wordOfBytes high low

/-- A state made ready to fetch has an even pc with a whole word of memory at it (20_memory.md R57). -/
theorem readyToFetch_pc_fetchable (s : State) :
    (readyToFetch s).pc.toNat % 2 = 0 ∧ (readyToFetch s).pc.toNat + 2 ≤ Config.memSize := by
  simp only [readyToFetch]
  split
  · decide
  · omega

/-- The fetch after two bytes are placed gives their word. -/
theorem fetch_placeAtPc_readyToFetch (s : State) (byte0 byte1 : Byte) :
    fetch (placeAtPc (readyToFetch s) [byte0, byte1]) = .ok (wordOfBytes byte0 byte1) := by
  obtain ⟨even, inside⟩ := readyToFetch_pc_fetchable s
  exact (fetch_ok_iff _ _).mpr ⟨even, inside, (wordAt_memPutBytes _ _ byte0 byte1).symm⟩

/-- Settles O8: the placing readies the phase, the agenda and pc, and the fetch gives the word it placed. -/
theorem placedWordIsExecuted : Obligations.PlacedWordIsExecuted := by
  intro s w i _ h
  obtain ⟨byte0, byte1, bytes, hd⟩ := decodeTableWord_inv h
  have hf : fetch (s.withFetchWord 16 w) = .ok (wordOfBytes byte0 byte1) := by
    rw [State.withFetchWord, bytes, fetch_placeAtPc_readyToFetch]
  rw [step_of_agenda_nil rfl, interpret_decoded rfl hf hd]

end Sys2Proof
end

section
/-! PROOFS. The host's events (49_host_interface.md): what `fire` makes of each answer of a move, the load, the ticks,
the poll, and the moves outside their phase. -/

namespace Sys2Proof

open Sys2Proof.Machine

/-! ### The answer of a move, as the host sees it -/

theorem fire_of_next {e : Event} {s t : State} (h : hostMove e s = .next t) : fire e s = (replyOf e s, t) := by
  rw [fire, h]

theorem fire_of_fault {e : Event} {s : State} {f : Fault} (h : hostMove e s = .fault f) :
    fire e s = (.fault f, s.enterFault) := by
  rw [fire, h]

theorem fire_of_refused {e : Event} {s : State} {r : Refusal} (h : hostMove e s = .refused r) :
    fire e s = (.refused r, s) := by
  rw [fire, h]

/-! ### Load -/

theorem hostMove_load {s : State} (fresh : s.phase = .constructed) (bytes : List Byte) :
    hostMove (.load bytes) s = loadImage bytes s := by
  rw [hostMove, fresh]

/-- An image that fits is copied to the load base (49_host_interface.md R172). -/
theorem loadImage_fits (s : State) {bytes : List Byte} (fits : bytes.length ≤ Config.memSize - Config.loadBase) :
    loadImage bytes s = .next { s with mem := memPutBytes s.mem Config.loadBase bytes, phase := .loaded } :=
  if_neg (Nat.not_lt.mpr fits)

/-- An image that does not fit faults, and nothing is copied (49_host_interface.md R173). -/
theorem loadImage_too_long (s : State) {bytes : List Byte} (long : Config.memSize - Config.loadBase < bytes.length) :
    loadImage bytes s = .fault (.loadError bytes.length) :=
  if_pos long

/-- Settles O15: the image is the run of bytes at the load base, and a load writes MEM and PHASE alone. -/
theorem loadCopiesTheImage : Obligations.LoadCopiesTheImage := fun s bytes fresh fits =>
  ⟨_, fire_of_next ((hostMove_load fresh bytes).trans (loadImage_fits s fits)), rfl,
    memByte_memPutBytes_inside bytes s.mem Config.loadBase,
    memByte_memPutBytes_outside bytes s.mem Config.loadBase, rfl⟩

/-- Settles O16: the load faults before any byte is copied, and taking the fault writes PHASE alone. -/
theorem loadOfTooLongImageFaults : Obligations.LoadOfTooLongImageFaults := fun s bytes fresh long =>
  fire_of_fault ((hostMove_load fresh bytes).trans (loadImage_too_long s long))

/-! ### Moves outside their phase -/

/-- Settles O17: the move is refused in that phase, and a refusal leaves the state. -/
theorem movesOutsideTheirPhaseAreRefused : Obligations.MovesOutsideTheirPhaseAreRefused := by
  refine fun s => ⟨fun faulted => ⟨?_, ?_, fun held pressed => ?_, fun bytes => ?_⟩, fun fresh => ?_,
    fun loaded bytes => ?_⟩
  · exact fire_of_refused (by rw [hostMove, interpret, faulted])
  · exact fire_of_refused (if_pos faulted)
  · exact fire_of_refused (if_pos faulted)
  · exact fire_of_refused (by rw [hostMove, faulted])
  · exact fire_of_refused (by rw [hostMove, interpret, fresh])
  · exact fire_of_refused (by rw [hostMove, loaded])

/-! ### Ticks -/

/-- A timer goes down by one per decrement, and stays at 0. -/
theorem toNat_decay_iterate (n : Nat) (b : Byte) : (decay^[n] b).toNat = b.toNat - n := by
  induction n with
  | zero => rfl
  | succ n ih => rw [Function.iterate_succ_apply', toNat_decay, ih, Nat.sub_sub]

/-- Ticks in a row decrement each timer by itself and leave the rest of the state. -/
theorem tick_iterate (n : Nat) (s : State) :
    tick^[n] s = { s with dt := decay^[n] s.dt, st := decay^[n] s.st } := by
  induction n generalizing s with
  | zero => rfl
  | succ n ih => exact ih (tick s)

/-- Outside phase Faulted, `n` tick events are `n` applications of `tick`: none of them leaves the phase. -/
theorem fire_tick_iterate (n : Nat) {s : State} (live : s.phase ≠ .faulted) :
    (fun u => (fire .tick u).2)^[n] s = tick^[n] s := by
  induction n generalizing s with
  | zero => rfl
  | succ n ih =>
    rw [Function.iterate_succ_apply, Function.iterate_succ_apply, fire_tick live]
    exact ih live

/-- What `n` ticks leave: the timers lower by `n`, down to 0, and the rest of the state (49_host_interface.md R178). -/
theorem tick_iterate_counts_down (n : Nat) (s : State) :
    (tick^[n] s).dt.toNat = s.dt.toNat - n ∧ (tick^[n] s).st.toNat = s.st.toNat - n ∧
      { tick^[n] s with dt := s.dt, st := s.st } = s := by
  rw [tick_iterate]
  exact ⟨toNat_decay_iterate n s.dt, toNat_decay_iterate n s.st, rfl⟩

/-- Settles O18: one event is one `tick`, `n` events are `n` of them, and those count down. -/
theorem ticksCountDownAndStopAtZero : Obligations.TicksCountDownAndStopAtZero :=
  ⟨fun s live => ⟨tick s, fire_tick live, rfl, tick_iterate_counts_down 1 s⟩,
    fun n s live => ⟨tick^[n] s, fire_tick_iterate n live, tick_iterate_counts_down n s⟩, tick_iterate_counts_down⟩

/-! ### Poll -/

/-- Distinct keys latched one after another: the pending keys not among them stay in order, and they follow
(10_state.md R38). -/
theorem foldl_latch {pressed : List Key} (distinct : pressed.Nodup) (edge : List Key) :
    pressed.foldl latch edge = edge.filter (fun k => decide (k ∉ pressed)) ++ pressed := by
  induction pressed generalizing edge with
  | nil => simp
  | cons k pressed ih =>
    obtain ⟨fresh, distinct⟩ := List.nodup_cons.mp distinct
    calc (k :: pressed).foldl latch edge
        = (edge.filter (· != k) ++ [k]).filter (fun j => decide (j ∉ pressed)) ++ pressed := ih distinct (latch edge k)
      _ = (edge.filter (· != k)).filter (fun j => decide (j ∉ pressed)) ++ k :: pressed := by simp [fresh]
      _ = edge.filter (fun j => decide (j ∉ k :: pressed)) ++ k :: pressed := by
        rw [List.filter_filter]
        congr 2
        ext j
        by_cases same : j = k <;> simp [same]

/-- Settles O19: a poll replaces HELD, and EDGE is the pressed keys latched in turn. -/
theorem pollLatchesPressedKeysLast : Obligations.PollLatchesPressedKeysLast := by
  intro s held pressed live distinct
  rw [fire_of_next (hostMove_pollInput live held pressed), pollInput, foldl_latch distinct]
  rfl

/-! ### Reads -/

/-- Settles O20: a read is carried out in every phase, and its move is the state itself. -/
theorem readsReturnStateUnchanged : Obligations.ReadsReturnStateUnchanged := fun _ =>
  ⟨fire_of_next rfl, fire_of_next rfl⟩

end Sys2Proof
end

section
/-! PROOFS. The faults (60_exceptions.md): under which conditions an instruction faults and that it
completes under all others, where a step is a `DecodeError`, and what a fault leaves. -/

namespace Sys2Proof

open Sys2Proof.Machine

/-! ### The two answers of a well-formed instruction -/

/-- Under its condition among c to h of 60_exceptions.md R202 an instruction is an `OperandRangeError`. -/
theorem exec_of_rangeFaults {i : Instr} {s : State} (wf : wellFormed i = true) (h : rangeFaults i s = true) :
    exec i s = .fault (rangeFault s) := by
  cases i with
  | callAddr nnn => exact exec_callAddr_full s nnn (beq_iff_eq.mp h)
  | ret => exact exec_ret_empty s (beq_iff_eq.mp h)
  | drwVxVyN x y n => exact exec_drwVxVyN_fault s x y n (bne_iff_ne.mp wf) (of_decide_eq_true h)
  | ldBVx x => exact storeAtIndex_fault s _ (by simpa [rangeFaults] using h)
  | ldMemVx x => exact storeAtIndex_fault s _ (by simpa [rangeFaults, Nat.add_assoc] using h)
  | ldVxMem x => exact exec_ldVxMem_fault s x (of_decide_eq_true h)
  | _ => cases h

/-- Outside those conditions an instruction completes. -/
theorem exec_of_not_rangeFaults {i : Instr} {s : State} (wf : wellFormed i = true) (h : rangeFaults i s = false) :
    ∃ t, exec i s = .next t := by
  cases i with
  | callAddr nnn =>
    have notFull : s.sp.val ≠ Config.stackDepth := beq_eq_false_iff_ne.mp h
    exact ⟨_, exec_callAddr s nnn (by have := s.sp.isLt; omega)⟩
  | ret =>
    obtain ⟨_, run⟩ := exec_ret s (beq_eq_false_iff_ne.mp h)
    exact ⟨_, run⟩
  | drwVxVyN x y n => exact ⟨_, exec_drwVxVyN s x y n (bne_iff_ne.mp wf) (Nat.not_lt.mp (of_decide_eq_false h))⟩
  | ldBVx x =>
    obtain ⟨whole, clear⟩ := Bool.or_eq_false_iff.mp h
    refine ⟨_, storeAtIndex_ok s _ ?_ (Nat.not_lt.mp (of_decide_eq_false clear))⟩
    exact Nat.not_lt.mp (of_decide_eq_false whole)
  | ldMemVx x =>
    obtain ⟨whole, clear⟩ := Bool.or_eq_false_iff.mp h
    refine ⟨_, storeAtIndex_ok s _ ?_ (Nat.not_lt.mp (of_decide_eq_false clear))⟩
    rw [regsUpTo_length]
    exact Nat.not_lt.mp (of_decide_eq_false whole)
  | ldVxMem x => exact ⟨_, exec_ldVxMem s x (Nat.not_lt.mp (of_decide_eq_false h))⟩
  | ldVxK x =>
    rcases List.eq_nil_or_concat' s.edge with noKey | ⟨older, k, pending⟩
    · exact ⟨_, exec_ldVxK_waits s x noKey⟩
    · exact ⟨_, exec_ldVxK s x older k pending⟩
  | _ => exact ⟨_, rfl⟩

/-- The one fault of a well-formed instruction is the `OperandRangeError`, and only under its condition. -/
theorem exec_fault_inv {i : Instr} {s : State} {f : Fault} (wf : wellFormed i = true) (h : exec i s = .fault f) :
    rangeFaults i s = true ∧ f = rangeFault s := by
  cases listed : rangeFaults i s with
  | false =>
    obtain ⟨t, run⟩ := exec_of_not_rangeFaults wf listed
    cases run.symm.trans h
  | true =>
    cases (exec_of_rangeFaults wf listed).symm.trans h
    exact ⟨rfl, rfl⟩

/-- The instructions without a word are the DRWs without rows (30_encoding.md R80). -/
theorem drw_no_rows_of_not_wellFormed {i : Instr} (h : wellFormed i = false) : ∃ x y, i = .drwVxVyN x y 0#4 := by
  cases i with
  | drwVxVyN x y n => exact ⟨x, y, congrArg _ (bne_eq_false_iff_eq.mp h)⟩
  | _ => cases h

theorem exec_ne_refused (i : Instr) (s : State) (r : Refusal) : exec i s ≠ .refused r := by
  intro h
  cases wf : wellFormed i with
  | false =>
    obtain ⟨x, y, rfl⟩ := drw_no_rows_of_not_wellFormed wf
    cases (exec_drwVxVyN_no_rows s x y).symm.trans h
  | true =>
    cases listed : rangeFaults i s with
    | false =>
      obtain ⟨t, run⟩ := exec_of_not_rangeFaults wf listed
      cases run.symm.trans h
    | true => cases (exec_of_rangeFaults wf listed).symm.trans h

/-- Settles O12: the listed conditions make the instruction fault, and where none holds it completes. -/
theorem rangeFaultsExactlyAsListed : Obligations.RangeFaultsExactlyAsListed := fun _ _ wf =>
  ⟨⟨fun ⟨_, h⟩ => (exec_fault_inv wf h).1, fun listed => ⟨_, exec_of_rangeFaults wf listed⟩⟩, exec_of_rangeFaults wf⟩

/-- Settles O13: a well-formed instruction faults or completes, and the DRW without rows faults. -/
theorem everyInstructionExecutes : Obligations.EveryInstructionExecutes := fun i s =>
  ⟨exec_ne_refused i s, exec_of_not_rangeFaults⟩

/-! ### The `DecodeError` of a step -/

/-- A word that no row accepts is a `DecodeError` of the step (60_exceptions.md R201). -/
theorem interpret_rejected {s : State} {w : Word} {e : Reject} (hp : s.phase = .loaded) (hf : fetch s = .ok w)
    (hd : decode w = .error e) : interpret s = .fault (.decodeError s.pc w) := by
  simp only [interpret, hp, hf, hd]

/-- A step that is a `DecodeError` fetched a word that no row accepts: a fetch that fails, and a decoded instruction,
which is well-formed, raise the `OperandRangeError` alone. -/
theorem interpret_decodeError_inv {s : State} {pc w : Word} (hp : s.phase = .loaded)
    (h : interpret s = .fault (.decodeError pc w)) : pc = s.pc ∧ fetch s = .ok w ∧ ∃ e, decode w = .error e := by
  cases hf : fetch s with
  | error f =>
    rw [interpret_fetch_error hp hf, fetch_error hf] at h
    cases h
  | ok u =>
    cases hd : decode u with
    | error e =>
      cases (interpret_rejected hp hf hd).symm.trans h
      exact ⟨rfl, rfl, e, hd⟩
    | ok i =>
      obtain ⟨wf, _⟩ := encodeOfDecode u i hd
      obtain ⟨_, range⟩ := exec_fault_inv wf ((interpret_decoded hp hf hd).symm.trans h)
      cases range

/-- Settles O10: the words that no row accepts are the table's. -/
theorem decodeErrorExactlyOnIllegalWords : Obligations.DecodeErrorExactlyOnIllegalWords := by
  intro s pc w hp noEvent
  rw [step_of_agenda_nil noEvent, ← illegalWordsAreTheListed w]
  refine ⟨interpret_decodeError_inv hp, ?_⟩
  rintro ⟨rfl, hf, e, hd⟩
  exact interpret_rejected hp hf hd

/-! ### What a fault leaves -/

/-- Settles O11: every fault is taken by `enterFault`, which writes PHASE alone. -/
theorem faultChangesPhaseAlone : Obligations.FaultChangesPhaseAlone := by
  intro e s t f h
  rw [fire_fault h]
  exact ⟨rfl, rfl, rfl, rfl, rfl, rfl, rfl, rfl, rfl, rfl, rfl, rfl, rfl⟩

end Sys2Proof
end

section
/-! PROOFS. The hazard of the delay timer (70_reset_and_hazards.md R241): between writes DT does not rise. -/

namespace Sys2Proof

open Sys2Proof.Machine

/-- Only LD DT,Vx writes DT (10_state.md R32). -/
theorem exec_keeps_dt {i : Instr} (hld : ∀ x, i ≠ .ldDTVx x) {s t : State} (h : exec i s = .next t) : t.dt = s.dt := by
  refine (exec_frame h).dt ?_
  cases i with
  | ldDTVx x => exact absurd rfl (hld x)
  | _ => rfl

theorem tick_dt_le (s : State) : (tick s).dt.toNat ≤ s.dt.toNat := by
  rw [tick_dt, toNat_decay]
  exact Nat.sub_le _ _

/-- Settles O21: a tick lowers DT or leaves it at 0, and every other event the statement admits leaves it as it was. -/
theorem delayTimerFallsBetweenWrites : Obligations.DelayTimerFallsBetweenWrites := by
  intro e s t h hcon hld
  rcases hostMove_next h with ⟨he, w, i, _, hf, hd, hx⟩ | ⟨_, _, rfl⟩ | ⟨held, pressed, _, _, rfl⟩ |
    ⟨bytes, _, _, _, rfl⟩ | ⟨he, _⟩ | ⟨_, rfl⟩
  · have noWrite : ∀ x, i ≠ .ldDTVx x := fun x hi => hld w x he hf (hi ▸ hd)
    rw [exec_keeps_dt noWrite hx]
  · exact tick_dt_le s
  · rw [pollInput_dt]
  · exact Nat.le_refl _
  · exact absurd he hcon
  · exact Nat.le_refl _

end Sys2Proof
end
